-- ==== Sys2Proof/Word.lean ====
section
/-! DEFINITION. Word.lean: the two word types of the tlr core and the plain-data form of its memories
(spec/00_scope.md section 5.1 and rule R4; spec/20_memory.md rules R30 to R32). -/

namespace Sys2Proof

/-- A 32-bit word: a register, the PC, a data-memory word, the immediate, the offset (XLEN and OFFLEN of R4). -/
abbrev Word := BitVec 32

/-- An instruction word: 80 bits, the width of one IMEM entry (ILEN of R4, R50). -/
abbrev InstrWord := BitVec 80

/-- A memory of whole words as (index, word) pairs. Its canonical form is `Machine.Memory.wf`. -/
abbrev Memory (α : Type) := List (Nat × α)

end Sys2Proof
end

