-- ==== Sys2Proof/Syntax.lean ====
section
/-! DEFINITION. Syntax.lean: the registers an instruction can name, the five-field instruction record, and the
ten instructions (spec/10_state.md rule R11; spec/30_encoding.md rules R50 to R55). -/

namespace Sys2Proof

/-- The seven entries of the register file: R0 to R5 and the PC, which is entry 6 (R11, R13). -/
inductive Reg where
  | r0 | r1 | r2 | r3 | r4 | r5 | pc
deriving DecidableEq, Repr

/-- The instruction record: the five fields every instruction word carries, used or not (R50, R51). -/
structure Record where
  opc : BitVec 8
  src : BitVec 4
  dst : BitVec 4
  off : BitVec 32
  imm : BitVec 32
deriving DecidableEq, Repr

/-- The ten instructions, each with the fields it uses (R52) in the order of R62: sources first, destination
last. Unused fields are ignored by the hardware (R58) and are not part of an instruction (log 11). -/
inductive Instr where
  /-- NOP (R90). -/
  | nop
  /-- SET #imm, Rd (R95). -/
  | set (imm : Word) (dst : Reg)
  /-- ADD Rs, Rd (R96). -/
  | add (src dst : Reg)
  /-- SUB Rs, Rd (R97). -/
  | sub (src dst : Reg)
  /-- LOAD [off], Rd (R106). -/
  | load (off : Word) (dst : Reg)
  /-- STORE Rs, [off] (R107). -/
  | store (src : Reg) (off : Word)
  /-- JGT Rs, Rd, target (R114). -/
  | jgt (src dst : Reg) (target : Word)
  /-- JEQ Rs, Rd, target (R115). -/
  | jeq (src dst : Reg) (target : Word)
  /-- JMPI Rd (R116). -/
  | jmpi (dst : Reg)
  /-- PRINT Rs (R91). -/
  | print (src : Reg)
deriving DecidableEq, Repr

end Sys2Proof
end

