-- ==== Sys2Proof/Decode.lean ====
section
/-! DEFINITION. Decode.lean: fields and packing of the 80-bit instruction word, the decoder, and after it the
encoder (spec/30_encoding.md rules R51 to R60). -/

namespace Sys2Proof

/-- Why a word is no instruction, in the order of R136: an OPC of 10 to 255 (R56), or a used register field of
7 to 15 (R57). -/
inductive Illegal where
  | unrecognizedOpcode
  | reservedSource
  | reservedDestination
deriving DecidableEq, Repr

/-- The five fields of an instruction word (R51). -/
def unpack (w : InstrWord) : Record where
  opc := w.extractLsb' 72 8
  src := w.extractLsb' 68 4
  dst := w.extractLsb' 64 4
  off := w.extractLsb' 32 32
  imm := w.extractLsb' 0 32

/-- The word made of five fields, OPC in the high bits (R53, `Pack`). -/
def pack (r : Record) : InstrWord := r.opc ++ r.src ++ r.dst ++ r.off ++ r.imm

/-- The register a 4-bit field names; 7 to 15 name none (R11). -/
def Reg.ofField (f : BitVec 4) : Option Reg :=
  match f.toNat with
  | 0 => some .r0
  | 1 => some .r1
  | 2 => some .r2
  | 3 => some .r3
  | 4 => some .r4
  | 5 => some .r5
  | 6 => some .pc
  | _ => none

/-- The number of a register (R11). -/
def Reg.field : Reg → BitVec 4
  | .r0 => 0
  | .r1 => 1
  | .r2 => 2
  | .r3 => 3
  | .r4 => 4
  | .r5 => 5
  | .pc => 6

/-- An instruction that uses SRC: illegal where SRC names no register (R57). -/
def withSource (r : Record) (k : Reg → Except Illegal Instr) : Except Illegal Instr :=
  match Reg.ofField r.src with
  | some s => k s
  | none => .error .reservedSource

/-- An instruction that uses DST: illegal where DST names no register (R57). -/
def withDestination (r : Record) (k : Reg → Except Illegal Instr) : Except Illegal Instr :=
  match Reg.ofField r.dst with
  | some d => k d
  | none => .error .reservedDestination

/-- An instruction that uses SRC and DST: SRC is checked first (R136). -/
def withBoth (r : Record) (k : Reg → Reg → Instr) : Except Illegal Instr :=
  withSource r fun s => withDestination r fun d => .ok (k s d)

/-- The decoder on a record: the opcode map of R55 with the used fields of R52; the fields an operation does not use
are not looked at (R58). -/
def decodeRecord (r : Record) : Except Illegal Instr :=
  match r.opc.toNat with
  | 0 => .ok .nop
  | 1 => withDestination r fun d => .ok (.set r.imm d)
  | 2 => withBoth r .add
  | 3 => withBoth r .sub
  | 4 => withDestination r fun d => .ok (.load r.off d)
  | 5 => withSource r fun s => .ok (.store s r.off)
  | 6 => withBoth r fun s d => .jgt s d r.imm
  | 7 => withBoth r fun s d => .jeq s d r.imm
  | 8 => withDestination r fun d => .ok (.jmpi d)
  | 9 => withSource r fun s => .ok (.print s)
  | _ => .error .unrecognizedOpcode

/-- The decoder of R60, total on any 80-bit word, rejecting by name. -/
def decode (w : InstrWord) : Except Illegal Instr := decodeRecord (unpack w)

/-- The record of an instruction as the notation table of R62 gives it: zero in every unused field (R58). -/
def recordOf : Instr → Record
  | .nop => ⟨0, 0, 0, 0, 0⟩
  | .set imm d => ⟨1, 0, d.field, 0, imm⟩
  | .add s d => ⟨2, s.field, d.field, 0, 0⟩
  | .sub s d => ⟨3, s.field, d.field, 0, 0⟩
  | .load off d => ⟨4, 0, d.field, off, 0⟩
  | .store s off => ⟨5, s.field, 0, off, 0⟩
  | .jgt s d t => ⟨6, s.field, d.field, 0, t⟩
  | .jeq s d t => ⟨7, s.field, d.field, 0, t⟩
  | .jmpi d => ⟨8, 0, d.field, 0, 0⟩
  | .print s => ⟨9, s.field, 0, 0, 0⟩

/-- The canonical word of an instruction (R53, R58). -/
def encode (i : Instr) : InstrWord := pack (recordOf i)

/-- The instruction word given by the low `nbits` bits of `w`, every higher bit 0. One word is one 80-bit number
(R34, R50), so it needs no laying out in bytes (log 7). -/
def wordOfBits (nbits w : Nat) : InstrWord := BitVec.ofNat 80 (w % 2 ^ nbits)

/-- What the decoder reads from the word whose bits are `w`, numbered as spec/opcode_table.json numbers them;
none where it refuses. -/
def decodeTableWord (nbits w : Nat) : Option Instr :=
  match decode (wordOfBits nbits w) with
  | .ok i => some i
  | .error _ => none

end Sys2Proof
end

