-- ==== Sys2Proof/Machine/Flags.lean ====
section
/-! DEFINITION. Machine/Flags.lean: the core has no flags (spec/10_state.md rule R18); what stands here are the two
conditions the branch unit computes directly from two registers (spec/44_jumps.md rules R114, R115) and the laws of
the ALU (spec/42_alu.md rules R96 to R99). -/

namespace Sys2Proof.Machine

/-- `wrap32(z)`: the word congruent to an exact integer modulo 2^32 (spec/00_scope.md section 5.1, R98). -/
def wrap32 (z : Int) : Word := BitVec.ofInt 32 z

/-- ADD's result: destination plus source, wrapped (R96). -/
def aluAdd (dest src : Word) : Word := wrap32 (dest.toInt + src.toInt)

/-- SUB's result: SOURCE minus DESTINATION, wrapped (R97). -/
def aluSub (dest src : Word) : Word := wrap32 (src.toInt - dest.toInt)

/-- The sequencer's increment, wrapped (R16, R98). -/
def increment (pc : Word) : Word := wrap32 (pc.toInt + 1)

/-- JGT's condition: a true signed comparison of the two values (R114). -/
def greaterSigned (src dest : Word) : Bool := decide (dest.toInt < src.toInt)

/-- JEQ's condition: all 32 bits equal (R115). -/
def equalWords (src dest : Word) : Bool := decide (dest = src)

end Sys2Proof.Machine
end

