-- ==== Sys2Proof/Config.lean ====
section
/-! DEFINITION. Config.lean: the parameters PROGSIZE, IMEM and MEMSIZE of a run (spec/00_scope.md rule R5).
The fixed numbers of R4 stand in the types: NGPR and NREG in `Reg`, NOPC in `Instr`, XLEN and OFFLEN in `Word`,
ILEN in `InstrWord`. R6: there is no other parameter and no optional feature. No value of this hardware is left
open (spec/93_implementation_defined.md, end of part 1), so there is no opaque constant here. -/

namespace Sys2Proof

/-- A size: 0 to 2^31 - 1 (R5). A size out of that range cannot be written down, as R150 asks. -/
abbrev Size := Fin 2147483648

/-- The parameters of a run (R5), "fixed from one reset to the next and never changed by the core".
`imem` lists the program's words by instruction index; an index it does not list holds the word 0 (log 8).
DESIGN CHOICE (log 1): `Machine.State` carries them, because the host's step function takes a state only. -/
structure Params where
  /-- PROGSIZE, the number of instructions of the program. -/
  progSize : Size
  /-- IMEM, the program: an 80-bit word for each index below PROGSIZE. -/
  imem : Memory InstrWord
  /-- MEMSIZE, the number of words of data memory. -/
  memSize : Size
deriving DecidableEq, Repr

end Sys2Proof
end

