-- ==== Sys2Proof/Machine/Memory.lean ====
section
/-! DEFINITION. Machine/Memory.lean: reading, writing and the canonical form of a memory of whole words
(spec/20_memory.md rules R31, R37, R39). `d` is what an index that is not listed holds. -/

namespace Sys2Proof.Machine

/-- The word at index `a`: the listed one, else `d`. A read changes nothing (R37). -/
def Memory.read {α : Type} (d : α) : Memory α → Nat → α
  | [], _ => d
  | (b, w) :: m, a => if a = b then w else Memory.read d m a

/-- The cell for `v` at `a` in front of `m`, or no cell where `v` is what an unlisted index holds. -/
def Memory.put {α : Type} [DecidableEq α] (d : α) (a : Nat) (v : α) (m : Memory α) : Memory α :=
  if v = d then m else (a, v) :: m

/-- Write `v` at index `a`: that word changes and nothing else (R37). Keeps the canonical form. -/
def Memory.write {α : Type} [DecidableEq α] (d : α) : Memory α → Nat → α → Memory α
  | [], a, v => Memory.put d a v []
  | (b, w) :: m, a, v =>
    if a < b then Memory.put d a v ((b, w) :: m)
    else if a = b then Memory.put d a v m
    else (b, w) :: Memory.write d m a v

/-- Every index listed is at least `lo` and below `hi`, the indices rise strictly, and no cell holds `d`. -/
def Memory.wfFrom {α : Type} [DecidableEq α] (d : α) (hi : Nat) : Nat → Memory α → Bool
  | _, [] => true
  | lo, (b, w) :: m => decide (lo ≤ b) && decide (b < hi) && decide (w ≠ d) && Memory.wfFrom d hi (b + 1) m

/-- The canonical form of a memory of `hi` words: equal memories are equal lists. -/
def Memory.wf {α : Type} [DecidableEq α] (d : α) (hi : Nat) (m : Memory α) : Bool :=
  Memory.wfFrom d hi 0 m

end Sys2Proof.Machine
end

