-- ==== Sys2Proof/Machine/State.lean ====
section
/-! DEFINITION. Machine/State.lean: the architectural state of the tlr core, its value after reset, and the reasons
a step can stop (spec/10_state.md rules R10 to R27; spec/60_exceptions.md rules R130, R137). -/

namespace Sys2Proof.Machine

/-- The register file: R0 to R5 and the PC, which is entry 6 of the same file (R10, R11, R13). No entry is hardwired
and none is banked (R12). -/
structure RegFile where
  r0 : Word
  r1 : Word
  r2 : Word
  r3 : Word
  r4 : Word
  r5 : Word
  pc : Word
deriving DecidableEq, Repr

/-- RS, the run state (R20). -/
inductive RunState where
  | running
  | done
  | faulted
deriving DecidableEq, Repr

/-- The four faults the core raises (R130). They are taken inside the machine: a step that raises one answers a next
state whose RS is FAULTED (R137, log 5). -/
inductive FaultCause where
  /-- Code 1, raised by LOAD and STORE (R131). -/
  | memOutOfRange
  /-- Code 2, raised by JGT, JEQ and JMPI (R132). -/
  | jumpOutOfRange
  /-- Code 3, raised by the decode of an illegal word (R133). -/
  | invalidOpcode
  /-- Code 4, raised by the boundary evaluation (R134). -/
  | fetchOutOfRange
deriving DecidableEq, Repr

/-- Reasons the MODEL stops with a fault: none. Every fault of this hardware has its entry described (R137) and is
taken as a next state, so this type has no constructor and no step ends in `.fault` (safe; log 5). -/
inductive Fault where
deriving DecidableEq, Repr

/-- Reasons the model gives an instruction no meaning. -/
inductive Refusal where
  /-- Raised by an arm of `exec` whose instruction has no meaning yet. Safe: the model then says nothing of it. No arm
  raises it: all ten instructions have their meaning. -/
  | notModelled (mnemonic : String)
deriving DecidableEq, Repr

/-- The architectural state of R26, with the parameters of the run (R5) beside it (log 1). -/
structure State where
  /-- x[0] to x[6] (R10). -/
  x : RegFile
  /-- DMEM, the data memory: whole words by word offset; an offset not listed holds 0 (R22, R27, R31). -/
  dmem : Memory Word
  /-- OUT, the words sent to the output port since reset, oldest first (R24). -/
  out : List Word
  /-- RS (R20). -/
  rs : RunState
  /-- CAUSE, `none` for code 0 (R20, log 12). -/
  cause : Option FaultCause
  /-- PROGSIZE, IMEM and MEMSIZE: no step changes them (R5, R162). -/
  params : Params
deriving DecidableEq, Repr

/-- The PC: another name for x[6] (R13). -/
def State.pc (s : State) : Word := s.x.pc

/-- PROGSIZE. -/
def State.progSize (s : State) : Nat := s.params.progSize.val

/-- MEMSIZE. -/
def State.memSize (s : State) : Nat := s.params.memSize.val

/-- Every register at zero. -/
def RegFile.zero : RegFile := ⟨0, 0, 0, 0, 0, 0, 0⟩

/-- The state after reset with the parameters `p`: the table of R27. -/
def State.create (p : Params) : State where
  x := RegFile.zero
  dmem := []
  out := []
  rs := if p.progSize.val = 0 then .done else .running
  cause := none
  params := p

/-- The parameters of a core to which the host has presented no program: PROGSIZE 0, and MEMSIZE the greatest R5
admits. DESIGN CHOICE (log 2, unsafe): the spec leaves both to the host. -/
def unloadedParams : Params where
  progSize := 0
  imem := []
  memSize := 2147483647

/-- The machine right after reset, with no program presented: every field as R27 gives it. Its RS is DONE, since
PROGSIZE is 0 (R161). A program is presented from outside, by the host (log 3). -/
def State.reset : State := State.create unloadedParams

end Sys2Proof.Machine
end

