-- ==== Sys2Proof/Machine/Operands.lean ====
section
/-! DEFINITION. Machine/Operands.lean: the operand forms of the ten instructions: a register (SRC or DST), a
data-memory offset (OFF), a jump target (IMM or a register's value) (spec/30_encoding.md rule R54). -/

namespace Sys2Proof.Machine

/-- `x[i]`: read a register, the PC like any other (R12, R13). While an instruction executes, the PC holds that
instruction's own index (R14). -/
def readReg (s : State) : Reg → Word
  | .r0 => s.x.r0
  | .r1 => s.x.r1
  | .r2 => s.x.r2
  | .r3 => s.x.r3
  | .r4 => s.x.r4
  | .r5 => s.x.r5
  | .pc => s.x.pc

/-- The register file with one entry replaced. -/
def RegFile.set (x : RegFile) (v : Word) : Reg → RegFile
  | .r0 => { x with r0 := v }
  | .r1 => { x with r1 := v }
  | .r2 => { x with r2 := v }
  | .r3 => { x with r3 := v }
  | .r4 => { x with r4 := v }
  | .r5 => { x with r5 := v }
  | .pc => { x with pc := v }

/-- `x[i] <- v`: write a register, the PC like any other (R12, R13). -/
def writeReg (r : Reg) (v : Word) (s : State) : State := { s with x := s.x.set v r }

/-- `InRange(a)`: the offset is below MEMSIZE, read as unsigned (R40). -/
def inRange (s : State) (a : Word) : Bool := decide (a.toNat < s.memSize)

/-- `MemRead(a, 1)`: the whole word at an offset (R40); called only for an offset in range. -/
def memRead (s : State) (a : Word) : Word := Memory.read 0 s.dmem a.toNat

/-- `MemWrite(a, 1, v)`: that word and nothing else (R37, R40); called only for an offset in range. -/
def memWrite (a v : Word) (s : State) : State := { s with dmem := Memory.write 0 s.dmem a.toNat v }

/-- `ValidTarget(t)`: a target, read as signed, is an index of the program (R113). -/
def validTarget (s : State) (t : Word) : Bool := decide (0 ≤ t.toInt) && decide (t.toInt < (s.progSize : Int))

end Sys2Proof.Machine
end

