-- ==== Sys2Proof/Machine/Ops.lean ====
section
/-! DEFINITION. Machine/Ops.lean: the shared operations: fetch, the sequencer, the boundary evaluation, taking a
fault, the conditional jump, output, and reset (spec/40_execution_cycle.md rules R71 to R79; spec/60_exceptions.md
rule R137; spec/70_reset_and_hazards.md rule R161). -/

namespace Sys2Proof.Machine

/-- TAKING A FAULT, `raise Fault(c)`: RS and CAUSE are written and nothing else; no register is saved, there is no
handler and no return (R137, R139). -/
def raiseFault (c : FaultCause) (s : State) : State := { s with rs := .faulted, cause := some c }

/-- The boundary evaluation (R72): DONE at PC = PROGSIZE, FetchOutOfRange for any other PC that is no index of the
program, no change otherwise. -/
def boundary (s : State) : State :=
  if s.pc.toInt = (s.progSize : Int) then { s with rs := .done }
  else if s.pc.toInt < 0 ∨ (s.progSize : Int) < s.pc.toInt then raiseFault .fetchOutOfRange s
  else s

/-- The sequencer's `pc <- pc + 1`, on the value x[6] holds at that moment (R76). -/
def advance (s : State) : State := writeReg .pc (increment s.pc) s

/-- What the execute phase comes to (R71, R75): a fault raised before anything was written (R80), or a state and
whether a jump was taken. -/
inductive Executed where
  | raised (c : FaultCause)
  | finished (jumped : Bool) (s : State)
deriving DecidableEq, Repr

/-- Phases 4 and 5 of a step that began in `s0` (R71): a fault ends the step (R79); otherwise the sequencer increments
unless a jump was taken (R76 to R78), and the boundary evaluation ends the step (R72). -/
def retire (s0 : State) : Executed → Host.Outcome State Fault Refusal
  | .raised c => .next (raiseFault c s0)
  | .finished true s => .next (boundary s)
  | .finished false s => .next (boundary (advance s))

/-- A data instruction's one write, of register `d` (R12, R80). -/
def writeResult (d : Reg) (v : Word) (s : State) : Executed := .finished false (writeReg d v s)

/-- A jump's target check, then its write of the PC where it is taken (R77, R78, R113). The target is checked whether
or not the jump is taken (R117). -/
def jumpTo (taken : Bool) (t : Word) (s : State) : Executed :=
  if validTarget s t then
    if taken then .finished true (writeReg .pc t s) else .finished false s
  else .raised .jumpOutOfRange

/-- A data access's bounds check, before anything is read or written (R40, R131). -/
def guardOffset (off : Word) (s : State) (access : Executed) : Executed :=
  if inRange s off then access else .raised .memOutOfRange

/-- `Output(v)`: one word appended to OUT; the port always accepts (R92). -/
def output (v : Word) (s : State) : State := { s with out := s.out ++ [v] }

/-- `Fetch(signed(pc))`: the one instruction word a step reads (R41, R73). -/
def fetch (s : State) : InstrWord := Memory.read 0 s.params.imem s.pc.toInt.toNat

/-- The core is RUNNING, so it takes a step (R70). -/
def isRunning (s : State) : Bool := decide (s.rs = .running)

/-- The PC is an index of the program: what must hold before a fetch (R41, R72). -/
def fetchInRange (s : State) : Bool := validTarget s s.pc

/-- What a halted core does: no step, and nothing changes until reset (R70, R139). DESIGN CHOICE (log 4): the model
answers the same state again. -/
def haltedStep (s : State) : Host.Outcome State Fault Refusal := .next s

/-- A RUNNING core whose PC is no index of the program: no run reaches it (R17). DEDUCED (log 6): the boundary
evaluation judges it, as the sentence R72 quotes asks "before a step begins". -/
def outOfRangeStep (s : State) : Host.Outcome State Fault Refusal := .next (boundary s)

/-- A word that is no instruction (R74, R133). -/
def illegalStep (s : State) : Host.Outcome State Fault Refusal := .next (raiseFault .invalidOpcode s)

/-- The reset sequence of R161, which the host may apply in any state (R160): every piece of state is written, the
parameters are bound anew, and the boundary evaluation comes last. -/
def applyReset (p : Params) (s : State) : State :=
  boundary { s with x := RegFile.zero, dmem := [], out := [], cause := none, rs := .running, params := p }

/-- The index at which an instruction is placed to be fetched next: the PC where a program can reach it, else 0
(log 9). -/
def placeIndex (s : State) : Nat :=
  if 0 ≤ s.pc.toInt ∧ s.pc.toInt < 2147483647 then s.pc.toInt.toNat else 0

/-- The parameters with the word `w` at the index `k`, the program lengthened to hold it (log 9). -/
def placeWord (k : Nat) (w : InstrWord) (p : Params) : Params :=
  { p with
    progSize := Fin.ofNat 2147483648 (max p.progSize.val (k + 1))
    imem := Memory.write 0 p.imem k w }

/-- `s` made ready to run the word `w` in its very next step: `w` stands at the PC, which is an index of the program,
and the core is RUNNING (log 3, log 9). -/
def placeInstruction (w : InstrWord) (s : State) : State :=
  { s with
    x := { s.x with pc := BitVec.ofNat 32 (placeIndex s) }
    rs := .running
    cause := none
    params := placeWord (placeIndex s) w s.params }

end Sys2Proof.Machine
end

