-- ==== Sys2Proof/Machine/Alu.lean ====
section
/-! DEFINITION. Machine/Alu.lean: SET, ADD and SUB (spec/42_alu.md rules R95 to R97). -/

namespace Sys2Proof.Machine

/-- SET writes all 32 bits of the immediate to a register (R95). -/
def execSet (imm : Word) (dst : Reg) (s : State) : Host.Outcome State Fault Refusal :=
  retire s (writeResult dst imm s)

/-- ADD adds the source into the destination; both are read before the write (R96, R80). -/
def execAdd (src dst : Reg) (s : State) : Host.Outcome State Fault Refusal :=
  retire s (writeResult dst (aluAdd (readReg s dst) (readReg s src)) s)

/-- SUB writes SOURCE minus DESTINATION to the destination (R97, R80). -/
def execSub (src dst : Reg) (s : State) : Host.Outcome State Fault Refusal :=
  retire s (writeResult dst (aluSub (readReg s dst) (readReg s src)) s)

end Sys2Proof.Machine
end

