-- ==== Sys2Proof/Machine/Jumps.lean ====
section
/-! DEFINITION. Machine/Jumps.lean: JGT, JEQ and JMPI (spec/44_jumps.md rules R113 to R117). -/

namespace Sys2Proof.Machine

/-- JGT jumps where the source is greater than the destination, both read as signed (R114). -/
def execJgt (src dst : Reg) (target : Word) (s : State) : Host.Outcome State Fault Refusal :=
  retire s (jumpTo (greaterSigned (readReg s src) (readReg s dst)) target s)

/-- JEQ jumps where the two registers hold the same word (R115). -/
def execJeq (src dst : Reg) (target : Word) (s : State) : Host.Outcome State Fault Refusal :=
  retire s (jumpTo (equalWords (readReg s src) (readReg s dst)) target s)

/-- JMPI jumps, always, to the index held in the register DST names (R116). -/
def execJmpi (dst : Reg) (s : State) : Host.Outcome State Fault Refusal :=
  retire s (jumpTo true (readReg s dst) s)

end Sys2Proof.Machine
end

