-- ==== Sys2Proof/Machine/LoadStore.lean ====
section
/-! DEFINITION. Machine/LoadStore.lean: LOAD and STORE (spec/43_load_store.md rules R105 to R107). -/

namespace Sys2Proof.Machine

/-- LOAD writes the word at an absolute offset to a register (R106). -/
def execLoad (off : Word) (dst : Reg) (s : State) : Host.Outcome State Fault Refusal :=
  retire s (guardOffset off s (writeResult dst (memRead s off) s))

/-- STORE writes a register to the word at an absolute offset (R107). -/
def execStore (src : Reg) (off : Word) (s : State) : Host.Outcome State Fault Refusal :=
  retire s (guardOffset off s (.finished false (memWrite off (readReg s src) s)))

end Sys2Proof.Machine
end

