-- ==== Sys2Proof/Machine/NopPrint.lean ====
section
/-! DEFINITION. Machine/NopPrint.lean: NOP and PRINT (spec/41_nop_print.md rules R90, R91). -/

namespace Sys2Proof.Machine

/-- NOP does nothing (R90). -/
def execNop (s : State) : Host.Outcome State Fault Refusal := retire s (.finished false s)

/-- PRINT sends one register's word to the output port (R91). -/
def execPrint (src : Reg) (s : State) : Host.Outcome State Fault Refusal :=
  retire s (.finished false (output (readReg s src) s))

end Sys2Proof.Machine
end

