-- ==== Sys2Proof/Machine/Dispatch.lean ====
section
/-! DEFINITION. Machine/Dispatch.lean: one arm per instruction (spec/40_execution_cycle.md rule R75). -/

namespace Sys2Proof.Machine

def exec (i : Instr) (s : State) : Host.Outcome State Fault Refusal :=
  match i with
  | .nop => Sys2Proof.Machine.execNop s
  | .set imm dst => Sys2Proof.Machine.execSet imm dst s
  | .add src dst => Sys2Proof.Machine.execAdd src dst s
  | .sub src dst => Sys2Proof.Machine.execSub src dst s
  | .load off dst => Sys2Proof.Machine.execLoad off dst s
  | .store src off => Sys2Proof.Machine.execStore src off s
  | .jgt src dst target => Sys2Proof.Machine.execJgt src dst target s
  | .jeq src dst target => Sys2Proof.Machine.execJeq src dst target s
  | .jmpi dst => Sys2Proof.Machine.execJmpi dst s
  | .print src => Sys2Proof.Machine.execPrint src s

end Sys2Proof.Machine
end

