-- ==== Sys2Proof/Machine/Step.lean ====
section
/-! DEFINITION. Machine/Step.lean: one step of the core (spec/40_execution_cycle.md rules R70, R71). -/

namespace Sys2Proof.Machine

/-- One step: fetch, decode, then the instruction's meaning, which holds the execute, sequence and boundary phases
(R71). A core that is not RUNNING takes no step (R70). -/
def step (s : State) : Host.Outcome State Fault Refusal :=
  if isRunning s then
    if fetchInRange s then
      match decode (fetch s) with
      | .ok i => exec i s
      | .error _ => illegalStep s
    else outOfRangeStep s
  else haltedStep s

/-- `s` with the instruction whose bits are `w` placed where `step` fetches next (log 3, log 9). -/
def State.withFetchWord (s : State) (nbits w : Nat) : State := placeInstruction (wordOfBits nbits w) s

end Sys2Proof.Machine
end

