-- ==== Sys2Proof/Machine/Text.lean ====
section
/-! DEFINITION. Machine/Text.lean: the text the host makes of the words in OUT (spec/41_nop_print.md rule R93). -/

namespace Sys2Proof.Machine

/-- The digit of a number below ten. -/
def digitChar (n : Nat) : Char := Char.ofNat (48 + n)

/-- The shortest decimal numeral of `n`, of at most `fuel + 1` digits. -/
def decimalDigits : Nat → Nat → List Char
  | 0, n => [digitChar (n % 10)]
  | fuel + 1, n => if n < 10 then [digitChar n] else decimalDigits fuel (n / 10) ++ [digitChar (n % 10)]

/-- The decimal numeral of `signed(v)`: a leading minus sign where it is negative, no plus sign, no leading zeros
(R93). Ten digits hold every 32-bit value. -/
def numeral (v : Word) : List Char :=
  if v.toInt < 0 then '-' :: decimalDigits 9 v.toInt.natAbs else decimalDigits 9 v.toInt.natAbs

/-- The line of one word of OUT: its numeral and a line feed (R93). -/
def lineText (v : Word) : List Char := numeral v ++ ['\n']

/-- The host's text of all the words printed so far, one line each in the order sent (R92, R93). -/
def outText (s : State) : List Char := s.out.flatMap lineText

end Sys2Proof.Machine
end

