-- ==== Sys2Proof/Machine/Listing.lean ====
section
/-! DEFINITION. Machine/Listing.lean: the spec's notation for programs (spec/30_encoding.md rules R62, R64), as text
made of an instruction. It binds no toolchain and the machine does not use it. -/

namespace Sys2Proof.Machine

/-- The pseudo-instruction `JMP target`, which stands for `JEQ R0, R0, target` (R64). -/
def jmp (target : Word) : Instr := .jeq .r0 .r0 target

/-- A register's name (R11). -/
def regName : Reg → List Char
  | .r0 => ['R', '0']
  | .r1 => ['R', '1']
  | .r2 => ['R', '2']
  | .r3 => ['R', '3']
  | .r4 => ['R', '4']
  | .r5 => ['R', '5']
  | .pc => ['P', 'C']

/-- Two operands, a comma and a space between them. -/
def operands (a b : List Char) : List Char := a ++ [',', ' '] ++ b

/-- An immediate: a number sign and the signed numeral (R62). -/
def immediateText (v : Word) : List Char := '#' :: numeral v

/-- An offset: the unsigned numeral in brackets (R62). -/
def offsetText (v : Word) : List Char := '[' :: decimalDigits 9 v.toNat ++ [']']

/-- An instruction in the notation of R62: sources first, destination last. -/
def listing : Instr → List Char
  | .nop => ['N', 'O', 'P']
  | .set imm d => ['S', 'E', 'T', ' '] ++ operands (immediateText imm) (regName d)
  | .add s d => ['A', 'D', 'D', ' '] ++ operands (regName s) (regName d)
  | .sub s d => ['S', 'U', 'B', ' '] ++ operands (regName s) (regName d)
  | .load off d => ['L', 'O', 'A', 'D', ' '] ++ operands (offsetText off) (regName d)
  | .store s off => ['S', 'T', 'O', 'R', 'E', ' '] ++ operands (regName s) (offsetText off)
  | .jgt s d t => ['J', 'G', 'T', ' '] ++ operands (operands (regName s) (regName d)) (numeral t)
  | .jeq s d t => ['J', 'E', 'Q', ' '] ++ operands (operands (regName s) (regName d)) (numeral t)
  | .jmpi d => ['J', 'M', 'P', 'I', ' '] ++ regName d
  | .print s => ['P', 'R', 'I', 'N', 'T', ' '] ++ regName s

end Sys2Proof.Machine
end

