-- ==== Sys2Proof/Machine/HostPort.lean ====
section
/-! DEFINITION. Machine/HostPort.lean: the status outputs and what the host may see (spec/10_state.md rules R20, R28;
spec/60_exceptions.md rules R135, R148). Reset, the host's one move, is `applyReset` (R160, R164). -/

namespace Sys2Proof.Machine

/-- The 2-bit code of RS (R20); 3 never occurs. -/
def RunState.code : RunState → BitVec 2
  | .running => 0
  | .done => 1
  | .faulted => 2

/-- The 3-bit code of CAUSE (R20, R130); 5 to 7 never occur. -/
def causeCode : Option FaultCause → BitVec 3
  | none => 0
  | some .memOutOfRange => 1
  | some .jumpOutOfRange => 2
  | some .invalidOpcode => 3
  | some .fetchOutOfRange => 4

/-- What the host may read of a halted core (R28). -/
structure FinalState where
  cause : BitVec 3
  x : RegFile
  dmem : Memory Word
deriving DecidableEq, Repr

/-- What the host may see: OUT and RS at any time, the rest once the core has halted (R28). -/
structure HostView where
  out : List Word
  rs : BitVec 2
  final : Option FinalState
deriving DecidableEq, Repr

/-- The host's view of a state (R28). -/
def hostView (s : State) : HostView where
  out := s.out
  rs := s.rs.code
  final :=
    match s.rs with
    | .running => none
    | .done => some ⟨causeCode s.cause, s.x, s.dmem⟩
    | .faulted => some ⟨causeCode s.cause, s.x, s.dmem⟩

/-- What is reported of a fault: its cause and the PC, and nothing of it in OUT (R135, R148). -/
def faultReport (s : State) : Option (FaultCause × Word) :=
  match s.rs with
  | .running => none
  | .done => none
  | .faulted => s.cause.map fun c => (c, s.pc)

end Sys2Proof.Machine
end

