-- ==== Sys2Proof/Machine/Ports.lean ====
section
/-! DEFINITION. Machine/Ports.lean: what one step does on the core's ports: one IMEM read, at most one DMEM access, at
most one OUT event (spec/40_execution_cycle.md rule R84; spec/20_memory.md rules R30, R49). -/

namespace Sys2Proof.Machine

/-- One access on the data port (R30, R36). -/
inductive DataAccess where
  | read (off : Word)
  | write (off v : Word)
deriving DecidableEq, Repr

/-- What a step does on the three ports (R84). -/
structure PortActivity where
  /-- The index on the instruction port, if an instruction word was fetched. -/
  fetched : Option Nat
  /-- The access on the data port, if any. -/
  data : Option DataAccess
  /-- The word sent to the output port, if any. -/
  printed : Option Word
deriving DecidableEq, Repr

/-- The data-port access of an instruction: one read for LOAD, one write for STORE, none otherwise and none when the
access faults (R84). -/
def dataAccess (s : State) : Instr → Option DataAccess
  | .nop => none
  | .set _ _ => none
  | .add _ _ => none
  | .sub _ _ => none
  | .load off _ => if inRange s off then some (.read off) else none
  | .store src off => if inRange s off then some (.write off (readReg s src)) else none
  | .jgt _ _ _ => none
  | .jeq _ _ _ => none
  | .jmpi _ => none
  | .print _ => none

/-- The output event of an instruction: one for PRINT, none otherwise (R84). -/
def printedWord (s : State) : Instr → Option Word
  | .nop => none
  | .set _ _ => none
  | .add _ _ => none
  | .sub _ _ => none
  | .load _ _ => none
  | .store _ _ => none
  | .jgt _ _ _ => none
  | .jeq _ _ _ => none
  | .jmpi _ => none
  | .print src => some (readReg s src)

/-- The instruction a RUNNING core is about to execute, if the word at its PC is one. -/
def currentInstr (s : State) : Option Instr :=
  if isRunning s && fetchInRange s then (decode (fetch s)).toOption else none

/-- The port activity of the step taken at `s`. -/
def portActivity (s : State) : PortActivity where
  fetched := if isRunning s && fetchInRange s then some s.pc.toInt.toNat else none
  data := (currentInstr s).bind (dataAccess s)
  printed := (currentInstr s).bind (printedWord s)

end Sys2Proof.Machine
end

