-- ==== Sys2Proof/WellFormed.lean ====
section
/-! DEFINITION. WellFormed.lean: which records are legal instructions (spec/30_encoding.md rules R52, R56, R57,
R59) and which parameters are well formed (spec/00_scope.md rule R5). A term of `Instr` is legal by construction:
its registers are of the closed set of R11, and its words are 32 bits; `Laws.LegalEncoding` says so of each
constructor's encoding. The decoder does not call these checks: it is written from R60 on its own. -/

namespace Sys2Proof

/-- The column "uses SRC" of R52, by OPC 0 to 9: SRC is used by ADD, SUB, STORE, JGT, JEQ, PRINT. -/
def srcUsedColumn : List Bool := [false, false, true, true, false, true, true, true, false, true]

/-- The column "uses DST" of R52, by OPC 0 to 9: DST is used by SET, ADD, SUB, LOAD, JGT, JEQ, JMPI. -/
def dstUsedColumn : List Bool := [false, true, true, true, true, false, true, true, true, false]

/-- The column "uses OFF" of R52, by OPC 0 to 9: OFF is used by LOAD and STORE. -/
def offUsedColumn : List Bool := [false, false, false, false, true, true, false, false, false, false]

/-- The column "uses IMM" of R52, by OPC 0 to 9: IMM is used by SET, JGT and JEQ. -/
def immUsedColumn : List Bool := [false, true, false, false, false, false, true, true, false, false]

/-- Whether the operation `opc` uses a field, given the field's column of R52; no other OPC uses any (R56). -/
def fieldUsed (column : List Bool) (opc : BitVec 8) : Bool := column.getD opc.toNat false

/-- A field's value where the operation uses it, and zero where it does not. -/
def keepIfUsed {w : Nat} (used : Bool) (field : BitVec w) : BitVec w := if used then field else 0

/-- The OPC is one of the ten (R55, R56). -/
def Record.opcodeDefined (r : Record) : Bool := decide (r.opc.toNat ≤ 9)

/-- SRC, where the operation uses it, names one of the seven registers (R57). -/
def Record.srcNamed (r : Record) : Bool := !fieldUsed srcUsedColumn r.opc || decide (r.src.toNat ≤ 6)

/-- DST, where the operation uses it, names one of the seven registers (R57). -/
def Record.dstNamed (r : Record) : Bool := !fieldUsed dstUsedColumn r.opc || decide (r.dst.toNat ≤ 6)

/-- R59: a record is a legal instruction when all three checks pass; otherwise it is illegal. -/
def Record.legal (r : Record) : Bool := r.opcodeDefined && r.srcNamed && r.dstNamed

/-- The record with zero in every field its operation does not use: the canonical encoding of R58. -/
def Record.canonical (r : Record) : Record where
  opc := r.opc
  src := keepIfUsed (fieldUsed srcUsedColumn r.opc) r.src
  dst := keepIfUsed (fieldUsed dstUsedColumn r.opc) r.dst
  off := keepIfUsed (fieldUsed offUsedColumn r.opc) r.off
  imm := keepIfUsed (fieldUsed immUsedColumn r.opc) r.imm

/-- The parameters of R5 in their one representation: IMEM lists only indices below PROGSIZE, rising, none of them
holding the word 0, which an unlisted index holds (log 8). -/
def Params.wf (p : Params) : Bool := Machine.Memory.wf 0 p.progSize.val p.imem

end Sys2Proof
end

