-- ==== Sys2Proof/Safety.lean ====
section
/-! DEFINITION. Safety.lean: what a good state and a good run of the tlr core are, and the words the statements use:
the invariant of R17, the verdict of the boundary evaluation (R72), a step that completes, a step that faults. -/

namespace Sys2Proof.Machine

/-- R17: where the PC stands, by RS and CAUSE. -/
abbrev State.PcInv (s : State) : Prop :=
  (s.rs = .running → 0 ≤ s.pc.toInt ∧ s.pc.toInt < (s.progSize : Int)) ∧
  (s.rs = .done → s.pc.toInt = (s.progSize : Int)) ∧
  (s.rs = .faulted → s.cause ≠ some .fetchOutOfRange → 0 ≤ s.pc.toInt ∧ s.pc.toInt < (s.progSize : Int)) ∧
  (s.rs = .faulted → s.cause = some .fetchOutOfRange → s.pc.toInt < 0 ∨ (s.progSize : Int) < s.pc.toInt)

/-- R20: CAUSE is non-zero exactly when RS = FAULTED. -/
abbrev State.StatusInv (s : State) : Prop := s.cause ≠ none ↔ s.rs = .faulted

/-- The data memory is in canonical form and holds no offset of MEMSIZE or more (R22, R39). -/
abbrev State.MemoryInv (s : State) : Prop := Memory.wf 0 s.memSize s.dmem = true

/-- The parameters are well formed (R5). -/
abbrev State.ParamsInv (s : State) : Prop := s.params.wf = true

/-- What holds of every state of every run. -/
abbrev State.Inv (s : State) : Prop := s.PcInv ∧ s.StatusInv ∧ s.MemoryInv ∧ s.ParamsInv

/-- Normal completion, which is no fault (R149). -/
abbrev State.Completed (s : State) : Prop := s.rs = .done ∧ s.cause = none

/-- No fault has occurred since reset. -/
abbrev State.FaultFree (s : State) : Prop := s.rs ≠ .faulted

/-- `n` steps of the run loop (R81). The machine itself has no bound on steps (R83). -/
def run (n : Nat) (s : State) : Host.Outcome State Fault Refusal := Host.Core.run Sys2Proof.core n s

/-- `s` is RUNNING and about to execute the word `w`. -/
abbrev State.AtWord (s : State) (w : InstrWord) : Prop :=
  s.rs = .running ∧ 0 ≤ s.pc.toInt ∧ s.pc.toInt < (s.progSize : Int) ∧ fetch s = w

/-- `t` is `s` after `raise Fault(c)`: RS and CAUSE written, nothing else (R137). -/
abbrev State.FaultedWith (s : State) (c : FaultCause) (t : State) : Prop :=
  t = { s with rs := .faulted, cause := some c }

/-- RS and CAUSE of `t` are what the boundary evaluation makes of its PC, after a step from the RUNNING state `s`
(R72). -/
abbrev Judged (s t : State) : Prop :=
  (t.pc.toInt = (s.progSize : Int) → t.rs = .done ∧ t.cause = s.cause) ∧
  (t.pc.toInt < 0 ∨ (s.progSize : Int) < t.pc.toInt → t.rs = .faulted ∧ t.cause = some .fetchOutOfRange) ∧
  (0 ≤ t.pc.toInt ∧ t.pc.toInt < (s.progSize : Int) → t.rs = .running ∧ t.cause = s.cause)

/-- A step from `s` to `t` that completed and wrote the value `v` to register `d`: the general registers other than `d`,
the data memory, OUT and the parameters are unchanged; the sequencer has added 1 to the PC, to the value just written
where `d` is the PC (R76); the boundary evaluation has judged the PC (R72). -/
structure RegisterStep (s t : State) (d : Reg) (v : Word) : Prop where
  others : ∀ r, r ≠ .pc → r ≠ d → readReg t r = readReg s r
  written : d ≠ .pc → readReg t d = v ∧ t.pc = s.pc + 1
  pcWritten : d = .pc → t.pc = v + 1
  memory : ∀ a, memRead t a = memRead s a
  out : t.out = s.out
  params : t.params = s.params
  verdict : Judged s t

/-- A step from `s` to `t` that completed and wrote no general register: the PC is `pc`, OUT is `out`, the data-memory
word at each offset `a` is `mem a`, the parameters are unchanged, and the boundary evaluation has judged the PC. -/
structure PlainStep (s t : State) (pc : Word) (out : List Word) (mem : Word → Word) : Prop where
  general : ∀ r, r ≠ .pc → readReg t r = readReg s r
  pc : t.pc = pc
  out : t.out = out
  memory : ∀ a, memRead t a = mem a
  params : t.params = s.params
  verdict : Judged s t

/-- The value a data instruction writes to the PC, for a SET, ADD, SUB or LOAD whose DST is the PC (R13, R76). -/
def dataWriteToPc (s : State) : Instr → Option Word
  | .nop => none
  | .set imm d => if d = .pc then some imm else none
  | .add src d => if d = .pc then some (s.pc + readReg s src) else none
  | .sub src d => if d = .pc then some (readReg s src - s.pc) else none
  | .load off d => if d = .pc then some (memRead s off) else none
  | .store _ _ => none
  | .jgt _ _ _ => none
  | .jeq _ _ _ => none
  | .jmpi _ => none
  | .print _ => none

/-- The target a jump takes in `s`, for a JMPI and for a JGT or JEQ whose condition holds (R114 to R116). -/
def takenTarget (s : State) : Instr → Option Word
  | .nop => none
  | .set _ _ => none
  | .add _ _ => none
  | .sub _ _ => none
  | .load _ _ => none
  | .store _ _ => none
  | .jgt src d t => if (readReg s d).toInt < (readReg s src).toInt then some t else none
  | .jeq src d t => if readReg s d = readReg s src then some t else none
  | .jmpi d => some (readReg s d)
  | .print _ => none

/-- The target a jump checks in `s`, taken or not (R113, R117). -/
def checkedTarget (s : State) : Instr → Option Word
  | .nop => none
  | .set _ _ => none
  | .add _ _ => none
  | .sub _ _ => none
  | .load _ _ => none
  | .store _ _ => none
  | .jgt _ _ t => some t
  | .jeq _ _ t => some t
  | .jmpi d => some (readReg s d)
  | .print _ => none

/-- The data-memory offset an instruction uses: the OFF field of LOAD and STORE (R105). -/
def usedOffset : Instr → Option Word
  | .nop => none
  | .set _ _ => none
  | .add _ _ => none
  | .sub _ _ => none
  | .load off _ => some off
  | .store _ off => some off
  | .jgt _ _ _ => none
  | .jeq _ _ _ => none
  | .jmpi _ => none
  | .print _ => none

/-- The offset an instruction stores to: the OFF field of STORE (R107). -/
def storedOffset : Instr → Option Word
  | .nop => none
  | .set _ _ => none
  | .add _ _ => none
  | .sub _ _ => none
  | .load _ _ => none
  | .store _ off => some off
  | .jgt _ _ _ => none
  | .jeq _ _ _ => none
  | .jmpi _ => none
  | .print _ => none

/-- No instruction executed in the first `n` steps from `s` is a STORE to `off` (R108). -/
def NoStoreTo (off : Word) (n : Nat) (s : State) : Prop :=
  ∀ k, k < n → ∀ u, run k s = .next u → ∀ i, currentInstr u = some i → storedOffset i ≠ some off

/-- The number a list of decimal digits spells. -/
def digitsValue (l : List Char) : Nat := l.foldl (fun acc c => 10 * acc + (c.toNat - 48)) 0

end Sys2Proof.Machine
end

