-- ==== Sys2Proof/Certificates/Slice0/Obligations.lean ====
section
/-! DEFINITION. Certificates/Slice0/Obligations.lean: the statements for the provers. Each docstring names the rule of
spec/ it formalises. The words they use (`RegisterStep`, `PlainStep`, `Judged`, `State.Inv`, …) are in Safety.lean. -/

open Sys2Proof Sys2Proof.Machine

/-! ### Encoding -/

/-- R53: packing and field extraction are inverse to each other. -/
def Obligations.PackAndUnpackAreInverse : Prop :=
  (∀ r : Record, unpack (pack r) = r) ∧ (∀ w : InstrWord, pack (unpack w) = w)

/-- The decoder reads back every instruction from its canonical word (R53, R58, R60). -/
def Obligations.DecodeOfEncodeIsIdentity : Prop :=
  ∀ i : Instr, decode (encode i) = .ok i

/-- The other direction: a word that decodes is, but for its unused fields, the word of the instruction it decodes to
(R53, R58, R60). -/
def Obligations.EncodeOfDecodeClearsUnusedFields : Prop :=
  ∀ (w : InstrWord) (i : Instr), decode w = .ok i → encode i = pack (unpack w).canonical

/-- R58: the fields an operation does not use are ignored, whatever they hold; the canonical word has zero in every one
of them; the two words the rule names are both NOP. -/
def Obligations.UnusedFieldsAreIgnored : Prop :=
  (∀ w : InstrWord, decode w = decode (pack (unpack w).canonical)) ∧
  (∀ i : Instr, (unpack (encode i)).canonical = unpack (encode i)) ∧
  decode 0x00000000000000000000#80 = .ok .nop ∧ decode 0x00FFFFFFFFFFFFFFFFFF#80 = .ok .nop

/-- R60: the decoder on any 80-bit word. It is illegal for an OPC above 9, then for a used SRC above 6, then for a used
DST above 6; otherwise it answers the instruction of that OPC with the word's used fields. -/
def Obligations.DecodeClassifiesEveryWord : Prop :=
  ∀ w : InstrWord,
    if 9 < (unpack w).opc.toNat then decode w = .error .unrecognizedOpcode
    else if (unpack w).opc.toNat ∈ [2, 3, 5, 6, 7, 9] ∧ 6 < (unpack w).src.toNat then
      decode w = .error .reservedSource
    else if (unpack w).opc.toNat ∈ [1, 2, 3, 4, 6, 7, 8] ∧ 6 < (unpack w).dst.toNat then
      decode w = .error .reservedDestination
    else ∃ i, decode w = .ok i ∧ recordOf i = (unpack w).canonical

/-- R59: every 80-bit word is exactly one of a legal instruction, or illegal. -/
def Obligations.EveryWordIsLegalOrIllegal : Prop :=
  ∀ w : InstrWord,
    ((∃ i, decode w = .ok i) ↔
      (unpack w).opc.toNat ≤ 9 ∧
      ((unpack w).opc.toNat ∈ [2, 3, 5, 6, 7, 9] → (unpack w).src.toNat ≤ 6) ∧
      ((unpack w).opc.toNat ∈ [1, 2, 3, 4, 6, 7, 8] → (unpack w).dst.toNat ≤ 6)) ∧
    ((∃ e, decode w = .error e) ↔ (unpack w).legal = false)

/-- Words the spec writes out (95_test_vectors.md section 2.7), one of each family, decode to the instructions it gives
for them. -/
def Obligations.SpecWordsDecode : Prop :=
  decode 0x010000000000000091D9#80 = .ok (.set 37337 .r0) ∧
  decode 0x03120000000000000000#80 = .ok (.sub .r1 .r2) ∧
  decode 0x04020000000300000000#80 = .ok (.load 3 .r2) ∧
  decode 0x0750000000000000000B#80 = .ok (.jeq .r5 .r0 11) ∧
  decode 0x09600000000000000000#80 = .ok (.print .pc)

/-! ### The step -/

/-- A RUNNING core whose PC is an index of the program and whose word there decodes to `i` takes the step `exec i`
(R71). -/
def Obligations.StepRunsTheDecodedInstruction : Prop :=
  ∀ (s : State) (w : InstrWord) (i : Instr), s.AtWord w → decode w = .ok i → step s = exec i s

/-- A RUNNING core always has a step, and so has every other state: `step` always answers a next state
(93_implementation_defined.md: nothing is stuck; log 4, log 5 and log 6 for the states no run reaches and the halted
ones). -/
def Obligations.EveryStateHasANextState : Prop :=
  ∀ s : State, ∃ t, step s = .next t

/-- A core that is DONE or FAULTED stays exactly as it is, however many steps are asked of it (R70, R139). That `step`
answers the same state is the model's choice (log 4). -/
def Obligations.HaltedCoreNeverChanges : Prop :=
  ∀ (s : State) (n : Nat), s.rs ≠ .running → run n s = .next s

/-- R133: a step raises InvalidOpcode exactly when the word it fetched has an OPC of 10 to 255 or a used register field
of 7 to 15, and nothing but RS and CAUSE is then written. -/
def Obligations.InvalidOpcodeExactlyForIllegalWords : Prop :=
  ∀ (s t : State) (w : InstrWord), s.AtWord w → s.cause = none → step s = .next t →
    ((t.cause = some .invalidOpcode ↔
        10 ≤ (unpack w).opc.toNat ∨
        ((unpack w).opc.toNat ∈ [2, 3, 5, 6, 7, 9] ∧ 7 ≤ (unpack w).src.toNat) ∨
        ((unpack w).opc.toNat ∈ [1, 2, 3, 4, 6, 7, 8] ∧ 7 ≤ (unpack w).dst.toNat)) ∧
      (t.cause = some .invalidOpcode → s.FaultedWith .invalidOpcode t))

/-- R131: a step raises MemOutOfRange exactly when its instruction is a LOAD or STORE whose OFF, read as unsigned, is
MEMSIZE or more; it depends on no register, and nothing but RS and CAUSE is then written. -/
def Obligations.MemOutOfRangeExactlyForBadOffsets : Prop :=
  ∀ (s t : State), s.rs = .running → s.cause = none → step s = .next t →
    ((t.cause = some .memOutOfRange ↔
        ∃ i off, currentInstr s = some i ∧ usedOffset i = some off ∧ s.memSize ≤ off.toNat) ∧
      (t.cause = some .memOutOfRange → s.FaultedWith .memOutOfRange t))

/-- R132: a step raises JumpOutOfRange exactly when its instruction is a JGT or JEQ, taken or not, whose IMM is negative
or at least PROGSIZE, or a JMPI whose register's value is; nothing but RS and CAUSE is then written. -/
def Obligations.JumpOutOfRangeExactlyForBadTargets : Prop :=
  ∀ (s t : State), s.rs = .running → s.cause = none → step s = .next t →
    ((t.cause = some .jumpOutOfRange ↔
        ∃ i tgt, currentInstr s = some i ∧ checkedTarget s i = some tgt ∧
          (tgt.toInt < 0 ∨ (s.progSize : Int) ≤ tgt.toInt)) ∧
      (t.cause = some .jumpOutOfRange → s.FaultedWith .jumpOutOfRange t))

/-- R134: FetchOutOfRange is raised exactly by a step that leaves the PC negative or above PROGSIZE. It comes only from a
SET, ADD, SUB or LOAD that wrote the PC; the PC then holds the written value plus 1, and nothing else but RS and CAUSE has
changed. -/
def Obligations.FetchOutOfRangeOnlyAfterAWriteOfThePc : Prop :=
  ∀ (s t : State), s.Inv → s.rs = .running → step s = .next t →
    (t.cause = some .fetchOutOfRange ↔ t.pc.toInt < 0 ∨ (s.progSize : Int) < t.pc.toInt) ∧
    (t.cause = some .fetchOutOfRange →
      ∃ i v, currentInstr s = some i ∧ dataWriteToPc s i = some v ∧
        t = { s with x := { s.x with pc := v + 1 }, rs := .faulted, cause := some .fetchOutOfRange })

/-- R79: a step that raises a fault in its decode or execute phase writes RS and CAUSE and nothing else, so the PC still
holds the index of the faulting instruction. -/
def Obligations.FaultingStepWritesOnlyTheStatus : Prop :=
  ∀ (s t : State) (c : FaultCause), s.rs = .running → s.cause = none → step s = .next t →
    t.cause = some c → c ≠ .fetchOutOfRange → s.FaultedWith c t ∧ t.pc = s.pc

/-- R72: every step that did not fault in an earlier phase ends with the boundary evaluation, and so does reset; and it
writes nothing but RS and CAUSE. -/
def Obligations.BoundaryJudgesEveryStepAndReset : Prop :=
  (∀ (s t : State), s.rs = .running → s.cause = none → step s = .next t →
    Judged s t ∨ ∃ c, c ≠ .fetchOutOfRange ∧ s.FaultedWith c t) ∧
  (∀ (p : Params) (s : State), Judged { State.create p with rs := .running } (applyReset p s)) ∧
  (∀ s : State, boundary s = { s with rs := (boundary s).rs, cause := (boundary s).cause })

/-- Only a taken jump and a data write to the PC leave sequential order (R118): after any other step that did not fault,
the PC is one more; after those, it is the target, or the written value plus 1 (R76 to R78). -/
def Obligations.OnlyJumpsAndPcWritesLeaveSequentialOrder : Prop :=
  ∀ (s t : State) (i : Instr), s.rs = .running → currentInstr s = some i → step s = .next t → t.rs ≠ .faulted →
    (∀ tgt, takenTarget s i = some tgt → t.pc = tgt) ∧
    (∀ v, dataWriteToPc s i = some v → t.pc = v + 1) ∧
    (takenTarget s i = none → dataWriteToPc s i = none → t.pc = s.pc + 1)

/-! ### Completion, result and frame of each instruction -/

/-- NOP completes in every RUNNING state: the PC advances by one and nothing else changes (R90). -/
def Obligations.NopOnlyAdvances : Prop :=
  ∀ s : State, s.rs = .running →
    ∃ t, exec .nop s = .next t ∧ PlainStep s t (s.pc + 1) s.out (memRead s)

/-- PRINT completes in every RUNNING state: the source's word is appended to OUT, the PC advances by one, and nothing
else changes (R91, R92). -/
def Obligations.PrintAppendsTheSource : Prop :=
  ∀ (s : State) (src : Reg), s.rs = .running →
    ∃ t, exec (.print src) s = .next t ∧ PlainStep s t (s.pc + 1) (s.out ++ [readReg s src]) (memRead s)

/-- SET completes in every RUNNING state: the immediate is written to any register, the PC included (R95). -/
def Obligations.SetWritesTheImmediate : Prop :=
  ∀ (s : State) (imm : Word) (dst : Reg), s.rs = .running →
    ∃ t, exec (.set imm dst) s = .next t ∧ RegisterStep s t dst imm

/-- ADD completes in every RUNNING state, overflow or not: destination plus source modulo 2^32 is written to the
destination (R96, R98). -/
def Obligations.AddWritesTheWrappedSum : Prop :=
  ∀ (s : State) (src dst : Reg), s.rs = .running →
    ∃ t, exec (.add src dst) s = .next t ∧ RegisterStep s t dst (readReg s dst + readReg s src)

/-- SUB completes in every RUNNING state, overflow or not: source MINUS destination modulo 2^32 is written to the
destination (R97, R98). -/
def Obligations.SubWritesSourceMinusDestination : Prop :=
  ∀ (s : State) (src dst : Reg), s.rs = .running →
    ∃ t, exec (.sub src dst) s = .next t ∧ RegisterStep s t dst (readReg s src - readReg s dst)

/-- LOAD of an offset below MEMSIZE completes: that data-memory word is written to any register, the PC included
(R106). -/
def Obligations.LoadWritesTheMemoryWord : Prop :=
  ∀ (s : State) (off : Word) (dst : Reg), s.rs = .running → off.toNat < s.memSize →
    ∃ t, exec (.load off dst) s = .next t ∧ RegisterStep s t dst (memRead s off)

/-- STORE to an offset below MEMSIZE completes: that data-memory word becomes the source's word, every other word is as
before, and no register but the PC changes (R107). -/
def Obligations.StoreWritesOneMemoryWord : Prop :=
  ∀ (s : State) (src : Reg) (off : Word), s.rs = .running → s.MemoryInv → off.toNat < s.memSize →
    ∃ t, exec (.store src off) s = .next t ∧
      PlainStep s t (s.pc + 1) s.out (fun a => if a = off then readReg s src else memRead s a)

/-- JGT with a valid target completes: the PC is the target where the source is greater than the destination as a signed
number, and one more where it is not; nothing else changes (R114). -/
def Obligations.JgtJumpsOnSignedGreater : Prop :=
  ∀ (s : State) (src dst : Reg) (target : Word), s.rs = .running →
    0 ≤ target.toInt → target.toInt < (s.progSize : Int) →
    ∃ t, exec (.jgt src dst target) s = .next t ∧
      PlainStep s t (if (readReg s dst).toInt < (readReg s src).toInt then target else s.pc + 1) s.out (memRead s)

/-- JEQ with a valid target completes: the PC is the target where the two registers hold the same word, and one more
where they do not; nothing else changes (R115). -/
def Obligations.JeqJumpsOnEqualWords : Prop :=
  ∀ (s : State) (src dst : Reg) (target : Word), s.rs = .running →
    0 ≤ target.toInt → target.toInt < (s.progSize : Int) →
    ∃ t, exec (.jeq src dst target) s = .next t ∧
      PlainStep s t (if readReg s dst = readReg s src then target else s.pc + 1) s.out (memRead s)

/-- JMPI through a register that holds a valid target completes: the PC is that value, and nothing else changes
(R116). -/
def Obligations.JmpiJumpsToTheRegister : Prop :=
  ∀ (s : State) (dst : Reg), s.rs = .running →
    0 ≤ (readReg s dst).toInt → (readReg s dst).toInt < (s.progSize : Int) →
    ∃ t, exec (.jmpi dst) s = .next t ∧ PlainStep s t (readReg s dst) s.out (memRead s)

/-- LOAD and STORE of an offset of MEMSIZE or more raise MemOutOfRange and write nothing else (R106, R107, R131). -/
def Obligations.LoadAndStoreFaultOutOfRange : Prop :=
  ∀ (s : State) (r : Reg) (off : Word), s.memSize ≤ off.toNat →
    (∃ t, exec (.load off r) s = .next t ∧ s.FaultedWith .memOutOfRange t) ∧
    (∃ t, exec (.store r off) s = .next t ∧ s.FaultedWith .memOutOfRange t)

/-- JGT and JEQ with an invalid target raise JumpOutOfRange whether or not the jump would be taken, and JMPI through a
register that holds an invalid target does; nothing else is written (R114 to R117, R132). -/
def Obligations.JumpsFaultOnInvalidTargets : Prop :=
  ∀ (s : State) (src dst : Reg) (target : Word),
    (target.toInt < 0 ∨ (s.progSize : Int) ≤ target.toInt →
      (∃ t, exec (.jgt src dst target) s = .next t ∧ s.FaultedWith .jumpOutOfRange t) ∧
      (∃ t, exec (.jeq src dst target) s = .next t ∧ s.FaultedWith .jumpOutOfRange t)) ∧
    ((readReg s dst).toInt < 0 ∨ (s.progSize : Int) ≤ (readReg s dst).toInt →
      ∃ t, exec (.jmpi dst) s = .next t ∧ s.FaultedWith .jumpOutOfRange t)

/-! ### The rule of each instruction, from the word in IMEM to the state after the step -/

/-- R90, from the word: any word with OPC 0, whatever its other fields hold, is a NOP. -/
def Obligations.NopWordRule : Prop :=
  ∀ (s : State) (w : InstrWord), s.AtWord w → (unpack w).opc = 0 →
    ∃ t, step s = .next t ∧ PlainStep s t (s.pc + 1) s.out (memRead s)

/-- R91, from the word: OPC 9 prints the register SRC names, and raises InvalidOpcode, with no output, where SRC is 7 to
15. -/
def Obligations.PrintWordRule : Prop :=
  ∀ (s : State) (w : InstrWord), s.AtWord w → (unpack w).opc = 9 →
    (∀ src : Reg, (unpack w).src = src.field →
      ∃ t, step s = .next t ∧ PlainStep s t (s.pc + 1) (s.out ++ [readReg s src]) (memRead s)) ∧
    (7 ≤ (unpack w).src.toNat → ∃ t, step s = .next t ∧ s.FaultedWith .invalidOpcode t)

/-- R95, from the word: OPC 1 writes IMM to the register DST names, and raises InvalidOpcode where DST is 7 to 15. -/
def Obligations.SetWordRule : Prop :=
  ∀ (s : State) (w : InstrWord), s.AtWord w → (unpack w).opc = 1 →
    (∀ dst : Reg, (unpack w).dst = dst.field →
      ∃ t, step s = .next t ∧ RegisterStep s t dst (unpack w).imm) ∧
    (7 ≤ (unpack w).dst.toNat → ∃ t, step s = .next t ∧ s.FaultedWith .invalidOpcode t)

/-- R96, from the word: OPC 2 adds the register SRC names into the register DST names, modulo 2^32, and raises
InvalidOpcode where SRC or DST is 7 to 15. -/
def Obligations.AddWordRule : Prop :=
  ∀ (s : State) (w : InstrWord), s.AtWord w → (unpack w).opc = 2 →
    (∀ src dst : Reg, (unpack w).src = src.field → (unpack w).dst = dst.field →
      ∃ t, step s = .next t ∧ RegisterStep s t dst (readReg s dst + readReg s src)) ∧
    (7 ≤ (unpack w).src.toNat ∨ 7 ≤ (unpack w).dst.toNat →
      ∃ t, step s = .next t ∧ s.FaultedWith .invalidOpcode t)

/-- R97, from the word: OPC 3 writes SOURCE minus DESTINATION, modulo 2^32, to the register DST names, and raises
InvalidOpcode where SRC or DST is 7 to 15. -/
def Obligations.SubWordRule : Prop :=
  ∀ (s : State) (w : InstrWord), s.AtWord w → (unpack w).opc = 3 →
    (∀ src dst : Reg, (unpack w).src = src.field → (unpack w).dst = dst.field →
      ∃ t, step s = .next t ∧ RegisterStep s t dst (readReg s src - readReg s dst)) ∧
    (7 ≤ (unpack w).src.toNat ∨ 7 ≤ (unpack w).dst.toNat →
      ∃ t, step s = .next t ∧ s.FaultedWith .invalidOpcode t)

/-- R106, from the word: OPC 4 loads the data-memory word at OFF into the register DST names; InvalidOpcode where DST is
7 to 15, before the offset is looked at; MemOutOfRange where OFF is MEMSIZE or more. -/
def Obligations.LoadWordRule : Prop :=
  ∀ (s : State) (w : InstrWord), s.AtWord w → (unpack w).opc = 4 →
    (∀ dst : Reg, (unpack w).dst = dst.field →
      ((unpack w).off.toNat < s.memSize →
        ∃ t, step s = .next t ∧ RegisterStep s t dst (memRead s (unpack w).off)) ∧
      (s.memSize ≤ (unpack w).off.toNat → ∃ t, step s = .next t ∧ s.FaultedWith .memOutOfRange t)) ∧
    (7 ≤ (unpack w).dst.toNat → ∃ t, step s = .next t ∧ s.FaultedWith .invalidOpcode t)

/-- R107, from the word: OPC 5 stores the register SRC names to the data-memory word at OFF and to no other;
InvalidOpcode where SRC is 7 to 15, before the offset is looked at; MemOutOfRange where OFF is MEMSIZE or more. -/
def Obligations.StoreWordRule : Prop :=
  ∀ (s : State) (w : InstrWord), s.AtWord w → s.MemoryInv → (unpack w).opc = 5 →
    (∀ src : Reg, (unpack w).src = src.field →
      ((unpack w).off.toNat < s.memSize →
        ∃ t, step s = .next t ∧
          PlainStep s t (s.pc + 1) s.out
            (fun a => if a = (unpack w).off then readReg s src else memRead s a)) ∧
      (s.memSize ≤ (unpack w).off.toNat → ∃ t, step s = .next t ∧ s.FaultedWith .memOutOfRange t)) ∧
    (7 ≤ (unpack w).src.toNat → ∃ t, step s = .next t ∧ s.FaultedWith .invalidOpcode t)

/-- R114 and R117, from the word: OPC 6 jumps to IMM where the register SRC names is greater, as a signed number, than
the register DST names; an IMM that is no valid target raises JumpOutOfRange, taken or not; InvalidOpcode where SRC or
DST is 7 to 15. -/
def Obligations.JgtWordRule : Prop :=
  ∀ (s : State) (w : InstrWord), s.AtWord w → (unpack w).opc = 6 →
    (∀ src dst : Reg, (unpack w).src = src.field → (unpack w).dst = dst.field →
      if 0 ≤ (unpack w).imm.toInt ∧ (unpack w).imm.toInt < (s.progSize : Int) then
        ∃ t, step s = .next t ∧
          PlainStep s t (if (readReg s dst).toInt < (readReg s src).toInt then (unpack w).imm else s.pc + 1)
            s.out (memRead s)
      else ∃ t, step s = .next t ∧ s.FaultedWith .jumpOutOfRange t) ∧
    (7 ≤ (unpack w).src.toNat ∨ 7 ≤ (unpack w).dst.toNat →
      ∃ t, step s = .next t ∧ s.FaultedWith .invalidOpcode t)

/-- R115 and R117, from the word: OPC 7 jumps to IMM where the registers SRC and DST name hold the same word; an IMM that
is no valid target raises JumpOutOfRange, taken or not; InvalidOpcode where SRC or DST is 7 to 15. -/
def Obligations.JeqWordRule : Prop :=
  ∀ (s : State) (w : InstrWord), s.AtWord w → (unpack w).opc = 7 →
    (∀ src dst : Reg, (unpack w).src = src.field → (unpack w).dst = dst.field →
      if 0 ≤ (unpack w).imm.toInt ∧ (unpack w).imm.toInt < (s.progSize : Int) then
        ∃ t, step s = .next t ∧
          PlainStep s t (if readReg s dst = readReg s src then (unpack w).imm else s.pc + 1) s.out (memRead s)
      else ∃ t, step s = .next t ∧ s.FaultedWith .jumpOutOfRange t) ∧
    (7 ≤ (unpack w).src.toNat ∨ 7 ≤ (unpack w).dst.toNat →
      ∃ t, step s = .next t ∧ s.FaultedWith .invalidOpcode t)

/-- R116, from the word: OPC 8 jumps to the value of the register DST names, always; JumpOutOfRange where that value is
negative or at least PROGSIZE; InvalidOpcode where DST is 7 to 15. -/
def Obligations.JmpiWordRule : Prop :=
  ∀ (s : State) (w : InstrWord), s.AtWord w → (unpack w).opc = 8 →
    (∀ dst : Reg, (unpack w).dst = dst.field →
      if 0 ≤ (readReg s dst).toInt ∧ (readReg s dst).toInt < (s.progSize : Int) then
        ∃ t, step s = .next t ∧ PlainStep s t (readReg s dst) s.out (memRead s)
      else ∃ t, step s = .next t ∧ s.FaultedWith .jumpOutOfRange t) ∧
    (7 ≤ (unpack w).dst.toNat → ∃ t, step s = .next t ∧ s.FaultedWith .invalidOpcode t)

/-! ### Arithmetic and range tests -/

/-- R98: ADD, SUB and the increment give the exact integer result reduced modulo 2^32 into the signed range, the same
bits under the signed and the unsigned reading of the operands. -/
def Obligations.ArithmeticWraps : Prop :=
  ∀ a b : Word,
    (aluAdd a b).toInt = (a.toInt + b.toInt).bmod (2 ^ 32) ∧
    (aluSub a b).toInt = (b.toInt - a.toInt).bmod (2 ^ 32) ∧
    (increment a).toInt = (a.toInt + 1).bmod (2 ^ 32) ∧
    (aluAdd a b).toNat = (a.toNat + b.toNat) % 2 ^ 32 ∧
    ((aluSub a b).toNat : Int) = ((b.toNat : Int) - (a.toNat : Int)) % 2 ^ 32 ∧
    (increment a).toNat = (a.toNat + 1) % 2 ^ 32

/-- A SUB executed twice in a row, between general registers and with the source another register than the destination,
restores the destination (R100). -/
def Obligations.SubTwiceRestoresTheDestination : Prop :=
  ∀ (s t u : State) (src dst : Reg), src ≠ .pc → dst ≠ .pc → src ≠ dst →
    exec (.sub src dst) s = .next t → exec (.sub src dst) t = .next u →
    ∀ r, r ≠ .pc → readReg u r = readReg s r

/-- The one test of each range in its two readings: since both sizes are at most 2^31 - 1, a target is valid as a signed
index exactly when it is below PROGSIZE as an unsigned number, and an offset in range is non-negative as a signed number
(R113, R40). -/
def Obligations.RangeTestsAgreeInBothReadings : Prop :=
  ∀ (s : State) (a : Word),
    (validTarget s a = true ↔ a.toNat < s.progSize) ∧
    (inRange s a = true ↔ 0 ≤ a.toInt ∧ a.toInt < (s.memSize : Int))

/-! ### Memory, output and parameters -/

/-- R108: where a STORE to `o` of the value V is followed, with no STORE to `o` in between, by a LOAD of `o`, that LOAD
sets its register to V: any register, the PC included, which is then incremented. -/
def Obligations.StoreThenLoadReturnsTheValue : Prop :=
  ∀ (s t u v : State) (src dst : Reg) (o : Word) (n : Nat), s.Inv →
    currentInstr s = some (.store src o) → step s = .next t → t.rs ≠ .faulted →
    run n t = .next u → NoStoreTo o n t →
    currentInstr u = some (.load o dst) → step u = .next v →
    (dst ≠ .pc → readReg v dst = readReg s src) ∧ (dst = .pc → v.pc = readReg s src + 1)

/-- A word no STORE has reached since reset reads 0 (R43, R27). -/
def Obligations.NeverStoredWordReadsZero : Prop :=
  ∀ (p : Params) (n : Nat) (t : State) (o : Word), p.wf = true →
    run n (State.create p) = .next t → NoStoreTo o n (State.create p) → memRead t o = 0

/-- R84: what a step does to the data memory and to OUT is what its port activity says: at most one word written, at most
one word printed, none of either when the step faults before it writes; and exactly one instruction word is fetched by
every step. -/
def Obligations.StepActsOnThePortsAsStated : Prop :=
  ∀ (s t : State), s.Inv → s.rs = .running → step s = .next t →
    (portActivity s).fetched = some s.pc.toInt.toNat ∧
    t.out = s.out ++ (portActivity s).printed.toList ∧
    (∀ a, memRead t a =
      match (portActivity s).data with
      | some (.write off v) => if a = off then v else memRead s a
      | _ => memRead s a) ∧
    (∀ c, t.cause = some c → c ≠ .fetchOutOfRange →
      (portActivity s).data = none ∧ (portActivity s).printed = none)

/-- OUT is write-only (R24): what a step does does not depend on what was printed before, it only appends. -/
def Obligations.NothingReadsTheOutputBack : Prop :=
  ∀ (s t : State) (earlier : List Word), step s = .next t →
    step { s with out := earlier ++ s.out } = .next { t with out := earlier ++ t.out }

/-- R162: the parameters do not change between one reset and the next, over any number of steps. -/
def Obligations.ParametersNeverChange : Prop :=
  ∀ (s t : State) (n : Nat), run n s = .next t → t.params = s.params

/-! ### Invariants and reset -/

/-- Every step keeps the invariant: the PC where RS and CAUSE say it is (R17), CAUSE non-zero exactly when FAULTED (R20),
the data memory canonical and inside MEMSIZE (R22), the parameters well formed (R5). -/
def Obligations.EveryStepKeepsTheInvariant : Prop :=
  ∀ s t : State, s.Inv → step s = .next t → t.Inv

/-- The invariant holds after reset, with any well-formed parameters, and at the model's own reset state (whose parameters
are the model's choice, log 2). -/
def Obligations.ResetMeetsTheInvariant : Prop :=
  (∀ p : Params, p.wf = true → (State.create p).Inv) ∧ State.reset.Inv

/-- R17: in every state of every run, with any parameters, the PC stands where RS and CAUSE say it does; and a step that
faults with CAUSE 1, 2 or 3 leaves it at the index of the faulting instruction. -/
def Obligations.PcStaysWhereTheRunStateSays : Prop :=
  ∀ (p : Params) (n : Nat) (t : State), p.wf = true → run n (State.create p) = .next t →
    t.PcInv ∧
    (∀ u, t.rs = .running → step t = .next u → u.rs = .faulted → u.cause ≠ some .fetchOutOfRange → u.pc = t.pc)

/-- R27: the values after reset. -/
def Obligations.ResetLeavesTheStatedValues : Prop :=
  ∀ p : Params,
    (∀ r, readReg (State.create p) r = 0) ∧ (∀ a, memRead (State.create p) a = 0) ∧
    (State.create p).out = [] ∧ (State.create p).cause = none ∧
    (0 < p.progSize.val → (State.create p).rs = .running) ∧ (p.progSize.val = 0 → (State.create p).rs = .done)

/-- R161: the reset sequence, applied in any state whatever, binds the parameters and leaves the state of R27. -/
def Obligations.ResetSequenceFromAnyState : Prop :=
  ∀ (p : Params) (s : State), applyReset p s = State.create p

/-- A program need not end (R83): a JMPI through the PC repeats for ever with no state change (R116). -/
def Obligations.JmpiThroughThePcNeverEnds : Prop :=
  ∀ (s : State) (n : Nat), s.Inv → currentInstr s = some (.jmpi .pc) → run n s = .next s

/-- DONE with CAUSE 0 is reached exactly at PC = PROGSIZE: a step of a good RUNNING state completes the run if and only if
it leaves the PC at PROGSIZE (R82, R149). -/
def Obligations.CompletionIsThePcAtTheEnd : Prop :=
  ∀ s t : State, s.Inv → s.rs = .running → step s = .next t →
    (t.Completed ↔ t.pc.toInt = (s.progSize : Int))

/-! ### The host's side -/

/-- R28: the host sees OUT and RS at any time, and every register, data-memory word and CAUSE once the core has halted,
not before. -/
def Obligations.HostSeesTheStateOnceHalted : Prop :=
  ∀ s : State,
    (hostView s).out = s.out ∧ (hostView s).rs = s.rs.code ∧
    (s.rs = .running → (hostView s).final = none) ∧
    (s.rs ≠ .running → (hostView s).final = some ⟨causeCode s.cause, s.x, s.dmem⟩)

/-- R93: the line of a word is its numeral and one line feed; the numeral is a minus sign exactly where the word is
negative, then the digits of its magnitude, at least one, with no leading zero but in the numeral of zero. -/
def Obligations.PrintedLineIsTheShortestDecimal : Prop :=
  ∀ v : Word, ∃ digits : List Char,
    lineText v = (if v.toInt < 0 then ['-'] else []) ++ digits ++ ['\n'] ∧
    digits ≠ [] ∧ (∀ c ∈ digits, '0'.toNat ≤ c.toNat ∧ c.toNat ≤ '9'.toNat) ∧
    digitsValue digits = v.toInt.natAbs ∧
    (digits.head? = some '0' → digits = ['0'])
end

