-- ==== Sys2Proof/Laws/PerInstr.lean ====
section
/-! SUPPORT. Laws/PerInstr.lean: the family of statements made per instruction: the record an instruction is encoded
from is a legal one (spec/30_encoding.md rules R52, R57, R59) in its canonical form (R58). -/

namespace Sys2Proof.Laws

/-- The record of `i` is legal and has zero in every field `i` does not use. -/
def LegalEncoding.Statement (i : Instr) : Prop :=
  (recordOf i).legal = true ∧ (recordOf i).canonical = recordOf i

/-- Every register's number is one of 0 to 6 (R11). -/
theorem regField_named (r : Reg) : r.field.toNat ≤ 6 := by cases r <;> decide

theorem LegalEncoding.nop : LegalEncoding.Statement .nop := ⟨rfl, rfl⟩

theorem LegalEncoding.set (imm : Word) (dst : Reg) : LegalEncoding.Statement (.set imm dst) := by
  cases dst <;> exact ⟨rfl, rfl⟩

theorem LegalEncoding.add (src dst : Reg) : LegalEncoding.Statement (.add src dst) := by
  cases src <;> cases dst <;> exact ⟨rfl, rfl⟩

theorem LegalEncoding.sub (src dst : Reg) : LegalEncoding.Statement (.sub src dst) := by
  cases src <;> cases dst <;> exact ⟨rfl, rfl⟩

theorem LegalEncoding.load (off : Word) (dst : Reg) : LegalEncoding.Statement (.load off dst) := by
  cases dst <;> exact ⟨rfl, rfl⟩

theorem LegalEncoding.store (src : Reg) (off : Word) : LegalEncoding.Statement (.store src off) := by
  cases src <;> exact ⟨rfl, rfl⟩

theorem LegalEncoding.jgt (src dst : Reg) (target : Word) : LegalEncoding.Statement (.jgt src dst target) := by
  cases src <;> cases dst <;> exact ⟨rfl, rfl⟩

theorem LegalEncoding.jeq (src dst : Reg) (target : Word) : LegalEncoding.Statement (.jeq src dst target) := by
  cases src <;> cases dst <;> exact ⟨rfl, rfl⟩

theorem LegalEncoding.jmpi (dst : Reg) : LegalEncoding.Statement (.jmpi dst) := by
  cases dst <;> exact ⟨rfl, rfl⟩

theorem LegalEncoding.print (src : Reg) : LegalEncoding.Statement (.print src) := by
  cases src <;> exact ⟨rfl, rfl⟩

end Sys2Proof.Laws
end

