-- ==== Sys2Proof/Laws/Decode.lean ====
section
/-! SUPPORT. Laws/Decode.lean: the small lemmas of the register fields and of the decoder's combinators
(spec/30_encoding.md rules R57, R60). -/

namespace Sys2Proof

/-- A register is read back from its number (R11). -/
@[simp] theorem ofField_field (r : Reg) : Reg.ofField r.field = some r := by cases r <;> rfl

/-- A 4-bit field of 0 to 6 names one register, whose number it is; 7 to 15 name none (R11, R57). -/
theorem ofField_spec (f : BitVec 4) :
    (f.toNat ≤ 6 ∧ ∃ r, Reg.ofField f = some r ∧ r.field = f) ∨ (7 ≤ f.toNat ∧ Reg.ofField f = none) := by
  revert f
  decide

/-- A field that is a register's number names that register. -/
theorem ofField_of_eq {f : BitVec 4} {r : Reg} (h : f = r.field) : Reg.ofField f = some r := by
  rw [h, ofField_field]

/-- A field of 7 or more names no register (R57). -/
theorem ofField_reserved {f : BitVec 4} (h : 7 ≤ f.toNat) : Reg.ofField f = none := by
  rcases ofField_spec f with ⟨h', _⟩ | ⟨_, e⟩
  · omega
  · exact e

/-- The SRC check answers a refusal exactly where SRC names no register. -/
theorem withSource_some {r : Record} {s : Reg} (h : Reg.ofField r.src = some s) (k : Reg → Except Illegal Instr) :
    withSource r k = k s := by simp [withSource, h]

theorem withSource_none {r : Record} (h : Reg.ofField r.src = none) (k : Reg → Except Illegal Instr) :
    withSource r k = .error .reservedSource := by simp [withSource, h]

theorem withDestination_some {r : Record} {d : Reg} (h : Reg.ofField r.dst = some d) (k : Reg → Except Illegal Instr) :
    withDestination r k = k d := by simp [withDestination, h]

theorem withDestination_none {r : Record} (h : Reg.ofField r.dst = none) (k : Reg → Except Illegal Instr) :
    withDestination r k = .error .reservedDestination := by simp [withDestination, h]

end Sys2Proof
end

