-- ==== Sys2Proof/Laws/State.lean ====
section
/-! SUPPORT. Laws/State.lean: one lemma per field per update of State, and the register file's read-after-write law, so
that no later proof unfolds a record update. -/

namespace Sys2Proof.Machine

@[simp] theorem writeReg_x (r : Reg) (v : Word) (s : State) : (writeReg r v s).x = s.x.set v r := rfl
@[simp] theorem writeReg_dmem (r : Reg) (v : Word) (s : State) : (writeReg r v s).dmem = s.dmem := rfl
@[simp] theorem writeReg_out (r : Reg) (v : Word) (s : State) : (writeReg r v s).out = s.out := rfl
@[simp] theorem writeReg_rs (r : Reg) (v : Word) (s : State) : (writeReg r v s).rs = s.rs := rfl
@[simp] theorem writeReg_cause (r : Reg) (v : Word) (s : State) : (writeReg r v s).cause = s.cause := rfl
@[simp] theorem writeReg_params (r : Reg) (v : Word) (s : State) : (writeReg r v s).params = s.params := rfl
@[simp] theorem writeReg_progSize (r : Reg) (v : Word) (s : State) : (writeReg r v s).progSize = s.progSize := rfl
@[simp] theorem writeReg_memSize (r : Reg) (v : Word) (s : State) : (writeReg r v s).memSize = s.memSize := rfl

@[simp] theorem memWrite_x (a v : Word) (s : State) : (memWrite a v s).x = s.x := rfl
@[simp] theorem memWrite_dmem (a v : Word) (s : State) : (memWrite a v s).dmem = Memory.write 0 s.dmem a.toNat v := rfl
@[simp] theorem memWrite_out (a v : Word) (s : State) : (memWrite a v s).out = s.out := rfl
@[simp] theorem memWrite_rs (a v : Word) (s : State) : (memWrite a v s).rs = s.rs := rfl
@[simp] theorem memWrite_cause (a v : Word) (s : State) : (memWrite a v s).cause = s.cause := rfl
@[simp] theorem memWrite_params (a v : Word) (s : State) : (memWrite a v s).params = s.params := rfl
@[simp] theorem memWrite_progSize (a v : Word) (s : State) : (memWrite a v s).progSize = s.progSize := rfl
@[simp] theorem memWrite_memSize (a v : Word) (s : State) : (memWrite a v s).memSize = s.memSize := rfl
@[simp] theorem memWrite_pc (a v : Word) (s : State) : (memWrite a v s).pc = s.pc := rfl

@[simp] theorem output_x (v : Word) (s : State) : (output v s).x = s.x := rfl
@[simp] theorem output_dmem (v : Word) (s : State) : (output v s).dmem = s.dmem := rfl
@[simp] theorem output_out (v : Word) (s : State) : (output v s).out = s.out ++ [v] := rfl
@[simp] theorem output_rs (v : Word) (s : State) : (output v s).rs = s.rs := rfl
@[simp] theorem output_cause (v : Word) (s : State) : (output v s).cause = s.cause := rfl
@[simp] theorem output_params (v : Word) (s : State) : (output v s).params = s.params := rfl
@[simp] theorem output_progSize (v : Word) (s : State) : (output v s).progSize = s.progSize := rfl
@[simp] theorem output_memSize (v : Word) (s : State) : (output v s).memSize = s.memSize := rfl
@[simp] theorem output_pc (v : Word) (s : State) : (output v s).pc = s.pc := rfl

@[simp] theorem advance_x (s : State) : (advance s).x = s.x.set (increment s.pc) .pc := rfl
@[simp] theorem advance_dmem (s : State) : (advance s).dmem = s.dmem := rfl
@[simp] theorem advance_out (s : State) : (advance s).out = s.out := rfl
@[simp] theorem advance_rs (s : State) : (advance s).rs = s.rs := rfl
@[simp] theorem advance_cause (s : State) : (advance s).cause = s.cause := rfl
@[simp] theorem advance_params (s : State) : (advance s).params = s.params := rfl
@[simp] theorem advance_progSize (s : State) : (advance s).progSize = s.progSize := rfl
@[simp] theorem advance_memSize (s : State) : (advance s).memSize = s.memSize := rfl

@[simp] theorem raiseFault_x (c : FaultCause) (s : State) : (raiseFault c s).x = s.x := rfl
@[simp] theorem raiseFault_dmem (c : FaultCause) (s : State) : (raiseFault c s).dmem = s.dmem := rfl
@[simp] theorem raiseFault_out (c : FaultCause) (s : State) : (raiseFault c s).out = s.out := rfl
@[simp] theorem raiseFault_rs (c : FaultCause) (s : State) : (raiseFault c s).rs = .faulted := rfl
@[simp] theorem raiseFault_cause (c : FaultCause) (s : State) : (raiseFault c s).cause = some c := rfl
@[simp] theorem raiseFault_params (c : FaultCause) (s : State) : (raiseFault c s).params = s.params := rfl
@[simp] theorem raiseFault_progSize (c : FaultCause) (s : State) : (raiseFault c s).progSize = s.progSize := rfl
@[simp] theorem raiseFault_memSize (c : FaultCause) (s : State) : (raiseFault c s).memSize = s.memSize := rfl
@[simp] theorem raiseFault_pc (c : FaultCause) (s : State) : (raiseFault c s).pc = s.pc := rfl

@[simp] theorem create_x (p : Params) : (State.create p).x = RegFile.zero := rfl
@[simp] theorem create_dmem (p : Params) : (State.create p).dmem = [] := rfl
@[simp] theorem create_out (p : Params) : (State.create p).out = [] := rfl
@[simp] theorem create_cause (p : Params) : (State.create p).cause = none := rfl
@[simp] theorem create_params (p : Params) : (State.create p).params = p := rfl
@[simp] theorem create_progSize (p : Params) : (State.create p).progSize = p.progSize.val := rfl
@[simp] theorem create_memSize (p : Params) : (State.create p).memSize = p.memSize.val := rfl
@[simp] theorem create_pc (p : Params) : (State.create p).pc = 0 := rfl

/-- RS after reset (R27). -/
@[simp] theorem create_rs (p : Params) :
    (State.create p).rs = if p.progSize.val = 0 then .done else .running := rfl

/-- What a register holds after a register was written (R12). -/
theorem readReg_writeReg (r q : Reg) (v : Word) (s : State) :
    readReg (writeReg r v s) q = if q = r then v else readReg s q := by
  cases r <;> cases q <;> rfl

@[simp] theorem readReg_writeReg_same (r : Reg) (v : Word) (s : State) : readReg (writeReg r v s) r = v := by
  simp [readReg_writeReg]

/-- The PC is register 6 (R13). -/
@[simp] theorem readReg_pc (s : State) : readReg s .pc = s.pc := rfl

/-- The PC after a register was written. -/
@[simp] theorem writeReg_pc (r : Reg) (v : Word) (s : State) :
    (writeReg r v s).pc = if r = .pc then v else s.pc := by
  cases r <;> rfl

/-- The PC after the sequencer's increment (R76). -/
@[simp] theorem advance_pc (s : State) : (advance s).pc = increment s.pc := rfl

/-- A read depends on the register file alone. -/
theorem readReg_congr {s t : State} (h : t.x = s.x) (q : Reg) : readReg t q = readReg s q := by
  cases q <;> simp [readReg, h]

/-- The increment leaves every general register alone. -/
theorem readReg_advance (s : State) {q : Reg} (h : q ≠ .pc) : readReg (advance s) q = readReg s q := by
  cases q <;> first | rfl | exact absurd rfl h

/-- A data-memory read depends on the data memory alone. -/
theorem memRead_congr {s t : State} (h : t.dmem = s.dmem) (a : Word) : memRead t a = memRead s a := by
  simp [memRead, h]

end Sys2Proof.Machine
end

