-- ==== Sys2Proof/Laws/Memory.lean ====
section
/-! SUPPORT. Laws/Memory.lean: a write is read back and leaves every other word alone, and every memory operation keeps
the canonical form (spec/20_memory.md rules R37, R39). -/

namespace Sys2Proof.Machine

variable {α : Type} [DecidableEq α] {d : α}

theorem wfFrom_cons {hi lo b : Nat} {w : α} {m : Memory α} :
    Memory.wfFrom d hi lo ((b, w) :: m) = true ↔
      lo ≤ b ∧ b < hi ∧ w ≠ d ∧ Memory.wfFrom d hi (b + 1) m = true := by
  simp [Memory.wfFrom, and_assoc]

/-- A canonical list from `lo` on is one from any lower start. -/
theorem wfFrom_mono {hi : Nat} {m : Memory α} :
    ∀ {lo lo' : Nat}, lo' ≤ lo → Memory.wfFrom d hi lo m = true → Memory.wfFrom d hi lo' m = true := by
  intro lo lo' hle h
  cases m with
  | nil => rfl
  | cons c m =>
    obtain ⟨b, w⟩ := c
    rw [wfFrom_cons] at h ⊢
    exact ⟨hle.trans h.1, h.2⟩

/-- Below the start of a canonical list nothing is listed. -/
theorem read_of_lt {hi : Nat} {m : Memory α} :
    ∀ {lo a : Nat}, Memory.wfFrom d hi lo m = true → a < lo → Memory.read d m a = d := by
  induction m with
  | nil => intros; rfl
  | cons c m ih =>
    obtain ⟨b, w⟩ := c
    intro lo a h ha
    rw [wfFrom_cons] at h
    have hne : a ≠ b := by omega
    simp only [Memory.read, if_neg hne]
    exact ih h.2.2.2 (by omega)

theorem read_put_same {hi lo a : Nat} {v : α} {m : Memory α} (h : Memory.wfFrom d hi lo m = true) (ha : a < lo) :
    Memory.read d (Memory.put d a v m) a = v := by
  unfold Memory.put
  split
  · rename_i hv
    rw [read_of_lt h ha, hv]
  · simp [Memory.read]

theorem read_put_other {a b : Nat} {v : α} {m : Memory α} (h : b ≠ a) :
    Memory.read d (Memory.put d a v m) b = Memory.read d m b := by
  unfold Memory.put
  split <;> simp [Memory.read, h]

/-- Reading after a write: the word written at its index, the old word at every other (R37). -/
theorem read_write {hi : Nat} {m : Memory α} :
    ∀ {lo : Nat}, Memory.wfFrom d hi lo m = true → ∀ (a : Nat) (v : α) (b : Nat),
      Memory.read d (Memory.write d m a v) b = if b = a then v else Memory.read d m b := by
  induction m with
  | nil =>
    intro lo _ a v b
    by_cases hba : b = a
    · subst hba
      simp only [Memory.write, if_true]
      exact read_put_same (hi := 0) (lo := b + 1) rfl (by omega)
    · simp only [Memory.write, if_neg hba]
      exact read_put_other hba
  | cons c m ih =>
    obtain ⟨i, w⟩ := c
    intro lo h a v b
    have h' := h
    rw [wfFrom_cons] at h'
    by_cases hba : b = a
    · subst hba
      simp only [Memory.write, if_true]
      by_cases h1 : b < i
      · rw [if_pos h1]
        exact read_put_same (wfFrom_cons.2 ⟨le_rfl, h'.2⟩) h1
      · rw [if_neg h1]
        by_cases h2 : b = i
        · rw [if_pos h2]
          exact read_put_same h'.2.2.2 (by omega)
        · rw [if_neg h2]
          simp only [Memory.read, if_neg h2]
          simpa using ih h'.2.2.2 b v b
    · simp only [Memory.write, if_neg hba]
      by_cases h1 : a < i
      · rw [if_pos h1]
        exact read_put_other hba
      · rw [if_neg h1]
        by_cases h2 : a = i
        · rw [if_pos h2]
          subst h2
          rw [read_put_other hba]
          simp [Memory.read, hba]
        · rw [if_neg h2]
          by_cases h3 : b = i
          · simp [Memory.read, h3]
          · simp only [Memory.read, if_neg h3]
            simpa [hba] using ih h'.2.2.2 a v b

theorem wfFrom_put {hi lo a : Nat} {v : α} {m : Memory α} (h : Memory.wfFrom d hi (a + 1) m = true) (hlo : lo ≤ a)
    (ha : a < hi) : Memory.wfFrom d hi lo (Memory.put d a v m) = true := by
  unfold Memory.put
  split
  · exact wfFrom_mono (by omega) h
  · rename_i hv
    exact wfFrom_cons.2 ⟨hlo, ha, hv, h⟩

theorem wfFrom_write {hi : Nat} {m : Memory α} :
    ∀ {lo a : Nat} {v : α}, Memory.wfFrom d hi lo m = true → lo ≤ a → a < hi →
      Memory.wfFrom d hi lo (Memory.write d m a v) = true := by
  induction m with
  | nil => intro lo a v h hlo ha; exact wfFrom_put rfl hlo ha
  | cons c m ih =>
    obtain ⟨i, w⟩ := c
    intro lo a v h hlo ha
    have h' := wfFrom_cons.1 h
    simp only [Memory.write]
    by_cases h1 : a < i
    · rw [if_pos h1]
      exact wfFrom_put (wfFrom_cons.2 ⟨h1, h'.2⟩) hlo ha
    · rw [if_neg h1]
      by_cases h2 : a = i
      · rw [if_pos h2]
        subst h2
        exact wfFrom_put h'.2.2.2 hlo ha
      · rw [if_neg h2]
        exact wfFrom_cons.2 ⟨h'.1, h'.2.1, h'.2.2.1, ih h'.2.2.2 (by omega) ha⟩

/-- A write inside the memory keeps the canonical form. -/
theorem wf_write {hi a : Nat} {v : α} {m : Memory α} (h : Memory.wf d hi m = true) (ha : a < hi) :
    Memory.wf d hi (Memory.write d m a v) = true :=
  wfFrom_write h (Nat.zero_le a) ha

/-- The empty memory is in canonical form. -/
theorem wf_empty {hi : Nat} : Memory.wf d hi ([] : Memory α) = true := rfl

/-- A canonical memory is one of any greater size. -/
theorem wf_mono {hi hi' : Nat} {m : Memory α} (hle : hi ≤ hi') (h : Memory.wf d hi m = true) :
    Memory.wf d hi' m = true := by
  unfold Memory.wf at h ⊢
  generalize 0 = lo at h ⊢
  induction m generalizing lo with
  | nil => rfl
  | cons c m ih =>
    obtain ⟨b, w⟩ := c
    rw [wfFrom_cons] at h ⊢
    exact ⟨h.1, by omega, h.2.2.1, ih _ h.2.2.2⟩

/-- Two canonical memories with the same words are the same list. -/
theorem eq_of_read_eq {hi : Nat} {m : Memory α} :
    ∀ {m' : Memory α} {lo : Nat}, Memory.wfFrom d hi lo m = true → Memory.wfFrom d hi lo m' = true →
      (∀ a, Memory.read d m a = Memory.read d m' a) → m = m' := by
  induction m with
  | nil =>
    intro m' lo _ h' hr
    cases m' with
    | nil => rfl
    | cons c m' =>
      obtain ⟨b, w⟩ := c
      have := hr b
      simp only [Memory.read, if_true] at this
      exact absurd this.symm (wfFrom_cons.1 h').2.2.1
  | cons c m ih =>
    obtain ⟨b, w⟩ := c
    intro m' lo h h' hr
    have hc := wfFrom_cons.1 h
    cases m' with
    | nil =>
      have := hr b
      simp only [Memory.read, if_true] at this
      exact absurd this hc.2.2.1
    | cons c' m' =>
      obtain ⟨b', w'⟩ := c'
      have hc' := wfFrom_cons.1 h'
      have hb : b = b' := by
        rcases Nat.lt_trichotomy b b' with hlt | heq | hgt
        · have := hr b
          rw [read_of_lt (wfFrom_cons.2 ⟨le_rfl, hc'.2⟩) hlt] at this
          simp only [Memory.read, if_true] at this
          exact absurd this hc.2.2.1
        · exact heq
        · have := hr b'
          rw [read_of_lt (wfFrom_cons.2 ⟨le_rfl, hc.2⟩) hgt] at this
          simp only [Memory.read, if_true] at this
          exact absurd this.symm hc'.2.2.1
      subst hb
      have hw : w = w' := by simpa [Memory.read] using hr b
      subst hw
      congr 1
      refine ih hc.2.2.2 hc'.2.2.2 fun a => ?_
      by_cases ha : a = b
      · subst ha
        rw [read_of_lt hc.2.2.2 (by omega), read_of_lt hc'.2.2.2 (by omega)]
      · simpa [Memory.read, ha] using hr a

/-- MemWrite, then MemRead (R37, R40): the word stored at that offset, every other word as before. -/
theorem memRead_memWrite {s : State} (h : Memory.wf 0 s.memSize s.dmem = true) (a v b : Word) :
    memRead (memWrite a v s) b = if b = a then v else memRead s b := by
  simp only [memRead, memWrite_dmem, BitVec.toNat_inj, read_write h]

/-- MemWrite of an offset in range keeps the canonical form of the data memory. -/
theorem memWrite_keeps_wf {s : State} (h : Memory.wf 0 s.memSize s.dmem = true) {a : Word} (v : Word)
    (ha : inRange s a = true) : Memory.wf 0 (memWrite a v s).memSize (memWrite a v s).dmem = true := by
  simp only [memWrite_memSize, memWrite_dmem]
  exact wf_write h (by simpa [inRange] using ha)

/-- The data memory after reset is in canonical form (R27). -/
theorem create_keeps_wf (p : Params) : Memory.wf 0 (State.create p).memSize (State.create p).dmem = true := rfl

end Sys2Proof.Machine
end

