-- ==== Sys2Proof/Laws/Ops.lean ====
section
/-! SUPPORT. Laws/Ops.lean: for each shared operation, once, everything it can do. -/

namespace Sys2Proof.Machine

/-! ### The ALU -/

/-- The sequencer's increment is the 32-bit sum with 1 (R16). -/
theorem increment_eq (a : Word) : increment a = a + 1 := by
  apply BitVec.eq_of_toInt_eq
  simp [increment, wrap32, BitVec.toInt_add]

/-- The adder is the 32-bit sum (R96). -/
theorem aluAdd_eq (dest src : Word) : aluAdd dest src = dest + src := by
  apply BitVec.eq_of_toInt_eq
  simp [aluAdd, wrap32, BitVec.toInt_add]

/-- The subtractor is the 32-bit difference, source minus destination (R97). -/
theorem aluSub_eq (dest src : Word) : aluSub dest src = src - dest := by
  apply BitVec.eq_of_toInt_eq
  simp [aluSub, wrap32, BitVec.toInt_sub]

/-! ### The boundary evaluation -/

/-- The boundary evaluation does one of three things (R72). -/
theorem boundary_spec (s : State) :
    (s.pc.toInt = (s.progSize : Int) ∧ boundary s = { s with rs := .done }) ∨
    ((s.pc.toInt < 0 ∨ (s.progSize : Int) < s.pc.toInt) ∧ boundary s = raiseFault .fetchOutOfRange s) ∨
    (0 ≤ s.pc.toInt ∧ s.pc.toInt < (s.progSize : Int) ∧ boundary s = s) := by
  unfold boundary
  by_cases h1 : s.pc.toInt = (s.progSize : Int)
  · exact .inl ⟨h1, if_pos h1⟩
  · by_cases h2 : s.pc.toInt < 0 ∨ (s.progSize : Int) < s.pc.toInt
    · exact .inr (.inl ⟨h2, by rw [if_neg h1, if_pos h2]⟩)
    · exact .inr (.inr ⟨by omega, by omega, by rw [if_neg h1, if_neg h2]⟩)

@[simp] theorem boundary_x (s : State) : (boundary s).x = s.x := by
  rcases boundary_spec s with ⟨_, h⟩ | ⟨_, h⟩ | ⟨_, _, h⟩ <;> simp [h]

@[simp] theorem boundary_dmem (s : State) : (boundary s).dmem = s.dmem := by
  rcases boundary_spec s with ⟨_, h⟩ | ⟨_, h⟩ | ⟨_, _, h⟩ <;> simp [h]

@[simp] theorem boundary_out (s : State) : (boundary s).out = s.out := by
  rcases boundary_spec s with ⟨_, h⟩ | ⟨_, h⟩ | ⟨_, _, h⟩ <;> simp [h]

@[simp] theorem boundary_params (s : State) : (boundary s).params = s.params := by
  rcases boundary_spec s with ⟨_, h⟩ | ⟨_, h⟩ | ⟨_, _, h⟩ <;> simp [h]

@[simp] theorem boundary_pc (s : State) : (boundary s).pc = s.pc := by
  simp [State.pc]

@[simp] theorem boundary_progSize (s : State) : (boundary s).progSize = s.progSize := by
  simp [State.progSize]

@[simp] theorem boundary_memSize (s : State) : (boundary s).memSize = s.memSize := by
  simp [State.memSize]

@[simp] theorem readReg_boundary (s : State) (r : Reg) : readReg (boundary s) r = readReg s r :=
  readReg_congr (boundary_x s) r

@[simp] theorem memRead_boundary (s : State) (a : Word) : memRead (boundary s) a = memRead s a :=
  memRead_congr (boundary_dmem s) a

/-- The verdict of the boundary evaluation at the end of a step from a RUNNING state (R72). -/
theorem boundary_judged {s u : State} (hr : u.rs = .running) (hc : u.cause = s.cause)
    (hp : u.params = s.params) : Judged s (boundary u) := by
  have hsz : s.progSize = u.progSize := by simp [State.progSize, hp]
  unfold Judged
  rw [hsz, boundary_pc]
  rcases boundary_spec u with ⟨h, e⟩ | ⟨h, e⟩ | ⟨h, h', e⟩ <;> rw [e]
  · exact ⟨fun _ => ⟨rfl, hc⟩, fun h2 => by omega, fun h2 => by omega⟩
  · exact ⟨fun h2 => by omega, fun _ => ⟨rfl, rfl⟩, fun h2 => by omega⟩
  · exact ⟨fun h2 => by omega, fun h2 => by omega, fun _ => ⟨hr, hc⟩⟩

/-! ### The end of a step -/

/-- A step ends in one of three ways (R71): a fault, the boundary evaluation after a taken jump, or the increment and the
boundary evaluation. -/
theorem retire_spec {s0 t : State} {e : Executed} (h : retire s0 e = .next t) :
    (∃ c, e = .raised c ∧ t = raiseFault c s0) ∨
    (∃ u, e = .finished true u ∧ t = boundary u) ∨
    (∃ u, e = .finished false u ∧ t = boundary (advance u)) := by
  rcases e with c | ⟨j, u⟩
  · exact .inl ⟨c, rfl, by simpa [retire] using h.symm⟩
  · cases j
    · exact .inr (.inr ⟨u, rfl, by simpa [retire] using h.symm⟩)
    · exact .inr (.inl ⟨u, rfl, by simpa [retire] using h.symm⟩)

/-- A step always ends in a next state. -/
theorem retire_next (s0 : State) (e : Executed) : ∃ t, retire s0 e = .next t := by
  rcases e with c | ⟨_ | _, u⟩ <;> exact ⟨_, rfl⟩

/-- A jump checks its target first; then it is taken or not (R113, R117). -/
theorem jumpTo_spec (taken : Bool) (t : Word) (s : State) :
    (validTarget s t = true ∧ taken = true ∧ jumpTo taken t s = .finished true (writeReg .pc t s)) ∨
    (validTarget s t = true ∧ taken = false ∧ jumpTo taken t s = .finished false s) ∨
    (validTarget s t = false ∧ jumpTo taken t s = .raised .jumpOutOfRange) := by
  unfold jumpTo
  cases validTarget s t <;> cases taken <;> simp

/-- A data access is made exactly where its offset is in range (R40). -/
theorem guardOffset_spec (off : Word) (s : State) (e : Executed) :
    (inRange s off = true ∧ guardOffset off s e = e) ∨
    (inRange s off = false ∧ guardOffset off s e = .raised .memOutOfRange) := by
  unfold guardOffset
  cases inRange s off <;> simp

/-- The range test of a target (R113). -/
theorem validTarget_iff (s : State) (t : Word) :
    validTarget s t = true ↔ 0 ≤ t.toInt ∧ t.toInt < (s.progSize : Int) := by
  simp [validTarget]

/-- The range test of an offset (R40). -/
theorem inRange_iff (s : State) (a : Word) : inRange s a = true ↔ a.toNat < s.memSize := by
  simp [inRange]

/-- A register write, the increment and the boundary evaluation make a `RegisterStep` (R76). -/
theorem registerStep_writeReg {s : State} (hr : s.rs = .running) (d : Reg) (v : Word) :
    RegisterStep s (boundary (advance (writeReg d v s))) d v where
  others r hpc hd := by simp [readReg_advance _ hpc, readReg_writeReg, hd]
  written hd := by simp [readReg_advance _ hd, increment_eq, hd]
  pcWritten hd := by simp [increment_eq, hd]
  memory a := by simp only [memRead_boundary]; rfl
  out := by simp
  params := by simp
  verdict := boundary_judged hr rfl rfl

/-- A state with the general registers, status and parameters of the RUNNING state `s`, judged, is a `PlainStep`. -/
theorem plainStep_boundary {s u : State} (hr : u.rs = .running) (hc : u.cause = s.cause) (hp : u.params = s.params)
    (hg : ∀ r, r ≠ .pc → readReg u r = readReg s r) : PlainStep s (boundary u) u.pc u.out (memRead u) where
  general r h := by rw [readReg_boundary, hg r h]
  pc := by simp
  out := by simp
  memory a := by simp
  params := by simp [hp]
  verdict := boundary_judged hr hc hp

/-- A taken jump's write of the PC and the boundary evaluation make a `PlainStep` (R77). -/
theorem plainStep_jump {s : State} (hr : s.rs = .running) (t : Word) :
    PlainStep s (boundary (writeReg .pc t s)) t s.out (memRead s) :=
  plainStep_boundary (u := writeReg .pc t s) hr rfl rfl fun r h => by simp [readReg_writeReg, h]

/-- The increment and the boundary evaluation of a state that differs from the RUNNING state `s` in memory or OUT alone
make a `PlainStep` (R76). -/
theorem plainStep_advance {s u : State} (hx : u.x = s.x) (hr : u.rs = .running) (hc : u.cause = s.cause)
    (hp : u.params = s.params) : PlainStep s (boundary (advance u)) (s.pc + 1) u.out (memRead u) := by
  have h : (advance u).pc = s.pc + 1 := by rw [advance_pc, increment_eq, State.pc, State.pc, hx]
  have := plainStep_boundary (s := s) (u := advance u) hr hc hp fun r h => by
    rw [readReg_advance _ h, readReg_congr hx]
  rw [h] at this
  exact this

end Sys2Proof.Machine
end

