-- ==== Sys2Proof/Laws/Step.lean ====
section
/-! SUPPORT. Laws/Step.lean: once, everything a step can do, and how `withFetchWord` is fetched. -/

namespace Sys2Proof.Machine

/-- A step that answers a next state did one of four things (R70 to R74; log 4 and log 6 for the first two). -/
theorem step_spec {s t : State} (h : step s = .next t) :
    (s.rs ≠ .running ∧ t = s) ∨
    (s.rs = .running ∧ fetchInRange s = false ∧ t = boundary s) ∨
    (s.rs = .running ∧ fetchInRange s = true ∧ (∃ e, decode (fetch s) = .error e) ∧
      t = raiseFault .invalidOpcode s) ∨
    (s.rs = .running ∧ fetchInRange s = true ∧ ∃ i, decode (fetch s) = .ok i ∧ exec i s = .next t) := by
  unfold step isRunning at h
  by_cases hr : s.rs = .running
  · cases hf : fetchInRange s
    · rw [if_pos (by simpa using hr), if_neg (by simp [hf])] at h
      exact .inr (.inl ⟨hr, rfl, by simpa [outOfRangeStep] using h.symm⟩)
    · rw [if_pos (by simpa using hr), if_pos hf] at h
      cases hd : decode (fetch s) with
      | error e =>
        simp only [hd] at h
        exact .inr (.inr (.inl ⟨hr, rfl, ⟨e, rfl⟩, by simpa [illegalStep] using h.symm⟩))
      | ok i =>
        simp only [hd] at h
        exact .inr (.inr (.inr ⟨hr, rfl, i, rfl, h⟩))
  · rw [if_neg (by simpa using hr)] at h
    exact .inl ⟨hr, by simpa [haltedStep] using h.symm⟩

/-- The instruction a RUNNING core is about to execute is what its word decodes to. -/
theorem currentInstr_eq_some {s : State} {i : Instr} :
    currentInstr s = some i ↔ s.rs = .running ∧ fetchInRange s = true ∧ decode (fetch s) = .ok i := by
  unfold currentInstr isRunning
  by_cases hr : s.rs = .running <;> cases hf : fetchInRange s <;> cases hd : decode (fetch s) <;>
    simp [hr, Except.toOption]

/-! ### The run loop -/

/-- No step changes nothing. -/
theorem run_zero (s : State) : run 0 s = .next s := rfl

/-- A run of `n + 1` steps is one step and a run of `n` (R81). -/
theorem run_succ {s t : State} (h : step s = .next t) (n : Nat) : run (n + 1) s = run n t := by
  have : Sys2Proof.core.step s = .next t := h
  simp only [run, Host.Core.run, this]
  rfl

/-! ### Each instruction, as one equation over the shared operations -/

theorem exec_nop (s : State) : exec .nop s = .next (boundary (advance s)) := rfl

theorem exec_print (src : Reg) (s : State) :
    exec (.print src) s = .next (boundary (advance (output (readReg s src) s))) := rfl

theorem exec_set (imm : Word) (dst : Reg) (s : State) :
    exec (.set imm dst) s = .next (boundary (advance (writeReg dst imm s))) := rfl

theorem exec_add (src dst : Reg) (s : State) :
    exec (.add src dst) s = .next (boundary (advance (writeReg dst (readReg s dst + readReg s src) s))) := by
  rw [← aluAdd_eq]; rfl

theorem exec_sub (src dst : Reg) (s : State) :
    exec (.sub src dst) s = .next (boundary (advance (writeReg dst (readReg s src - readReg s dst) s))) := by
  rw [← aluSub_eq]; rfl

theorem exec_load (off : Word) (dst : Reg) (s : State) :
    exec (.load off dst) s =
      if inRange s off then .next (boundary (advance (writeReg dst (memRead s off) s)))
      else .next (raiseFault .memOutOfRange s) := by
  change retire s (guardOffset off s _) = _
  unfold guardOffset
  split <;> rfl

theorem exec_store (src : Reg) (off : Word) (s : State) :
    exec (.store src off) s =
      if inRange s off then .next (boundary (advance (memWrite off (readReg s src) s)))
      else .next (raiseFault .memOutOfRange s) := by
  change retire s (guardOffset off s _) = _
  unfold guardOffset
  split <;> rfl

/-- How a jump ends its step: the target check first, taken or not (R117). -/
theorem retire_jumpTo (taken : Bool) (t : Word) (s : State) :
    retire s (jumpTo taken t s) =
      if validTarget s t then .next (boundary (if taken then writeReg .pc t s else advance s))
      else .next (raiseFault .jumpOutOfRange s) := by
  unfold jumpTo
  cases validTarget s t <;> cases taken <;> rfl

theorem exec_jgt (src dst : Reg) (t : Word) (s : State) :
    exec (.jgt src dst t) s =
      if validTarget s t then
        .next (boundary (if (readReg s dst).toInt < (readReg s src).toInt then writeReg .pc t s else advance s))
      else .next (raiseFault .jumpOutOfRange s) := by
  refine (retire_jumpTo _ t s).trans ?_
  simp [greaterSigned]

theorem exec_jeq (src dst : Reg) (t : Word) (s : State) :
    exec (.jeq src dst t) s =
      if validTarget s t then .next (boundary (if readReg s dst = readReg s src then writeReg .pc t s else advance s))
      else .next (raiseFault .jumpOutOfRange s) := by
  refine (retire_jumpTo _ t s).trans ?_
  simp [equalWords]

theorem exec_jmpi (dst : Reg) (s : State) :
    exec (.jmpi dst) s =
      if validTarget s (readReg s dst) then .next (boundary (writeReg .pc (readReg s dst) s))
      else .next (raiseFault .jumpOutOfRange s) :=
  (retire_jumpTo true _ s).trans (by simp)

/-! ### The host's placing of a word (log 3, log 9) -/

theorem placeIndex_lt (s : State) : placeIndex s < 2147483647 := by
  unfold placeIndex
  split <;> omega

theorem toInt_placeIndex (s : State) : (BitVec.ofNat 32 (placeIndex s)).toInt = (placeIndex s : Int) := by
  have := placeIndex_lt s
  rw [BitVec.toInt_ofNat']
  rw [Int.bmod_eq_of_le] <;> omega

theorem placeWord_progSize (k : Nat) (w : InstrWord) (p : Params) (hk : k < 2147483647) :
    (placeWord k w p).progSize.val = max p.progSize.val (k + 1) := by
  have := p.progSize.isLt
  simp only [placeWord, Fin.ofNat]
  exact Nat.mod_eq_of_lt (by omega)

/-- Placing a word keeps the parameters well formed. -/
theorem placeWord_keeps_wf {k : Nat} {w : InstrWord} {p : Params} (hk : k < 2147483647) (h : p.wf = true) :
    (placeWord k w p).wf = true := by
  unfold Params.wf at h ⊢
  rw [placeWord_progSize k w p hk]
  exact wf_write (wf_mono (le_max_left _ _) h) (by omega)

/-- What is placed is what the next step fetches. -/
theorem fetch_withFetchWord {s : State} (h : s.params.wf = true) (nbits w : Nat) :
    (s.withFetchWord nbits w).AtWord (wordOfBits nbits w) := by
  have hk := placeIndex_lt s
  have hpc : (s.withFetchWord nbits w).pc.toInt = (placeIndex s : Int) := toInt_placeIndex s
  have hsz : (s.withFetchWord nbits w).progSize = max s.progSize (placeIndex s + 1) :=
    placeWord_progSize _ _ _ hk
  refine ⟨rfl, by omega, by omega, ?_⟩
  unfold fetch
  rw [hpc]
  exact (read_write h _ _ _).trans (if_pos (by simp))

end Sys2Proof.Machine
end

