-- ==== Sys2Proof/Tests/Slice0.lean ====
section
/-! SUPPORT. Tests/Slice0.lean: small checks. Expected results come from the spec: the words of
spec/95_test_vectors.md section 2.7, its single-step vectors V-..., the texts of rule R93. Each theorem
`test_witness_<Name>` gives concrete states and operands that meet the hypotheses of `Obligations.<Name>`. -/

namespace Sys2Proof.Tests

open Sys2Proof.Machine

/-! ### Decoding and encoding: words written out by the spec (section 2.7) -/

theorem test_decode_nop : decode 0x00000000000000000000#80 = .ok .nop := by decide
theorem test_decode_nop_unused : decode 0x00FFFFFFFFFFFFFFFFFF#80 = .ok .nop := by decide
theorem test_decode_set : decode 0x010000000000000091D9#80 = .ok (.set 37337 .r0) := by decide
theorem test_decode_set_pc : decode 0x01060000000000000063#80 = .ok (.set 99 .pc) := by decide
theorem test_decode_add : decode 0x02100000000000000000#80 = .ok (.add .r1 .r0) := by decide
theorem test_decode_sub : decode 0x03120000000000000000#80 = .ok (.sub .r1 .r2) := by decide
theorem test_decode_load : decode 0x0400FFFFFFFF00000000#80 = .ok (.load 0xFFFFFFFF .r0) := by decide
theorem test_decode_store : decode 0x05000000000300000000#80 = .ok (.store .r0 3) := by decide
theorem test_decode_jgt : decode 0x06200000000000000002#80 = .ok (.jgt .r2 .r0 2) := by decide
theorem test_decode_jeq : decode 0x0750000000000000000B#80 = .ok (.jeq .r5 .r0 11) := by decide
theorem test_decode_jmpi : decode 0x08030000000000000000#80 = .ok (.jmpi .r3) := by decide
theorem test_decode_print : decode 0x09600000000000000000#80 = .ok (.print .pc) := by decide

/-- V-D1, V-D2: OPC 10 and OPC 255. -/
theorem test_decode_opcodes : decode 0x0A000000000000000000#80 = .error .unrecognizedOpcode ∧
    decode 0xFF000000000000000005#80 = .error .unrecognizedOpcode := by decide

/-- V-P5, V-D5, V-A9: a used register field of 7. -/
theorem test_decode_reserved : decode 0x09700000000000000000#80 = .error .reservedSource ∧
    decode 0x01070000000000000001#80 = .error .reservedDestination ∧
    decode 0x02710000000000000000#80 = .error .reservedSource := by decide

theorem test_encode_jgt : encode (.jgt .r2 .r0 2) = 0x06200000000000000002#80 := by decide
theorem test_encode_load : encode (.load 3 .r2) = 0x04020000000300000000#80 := by decide
theorem test_tableWord : decodeTableWord 80 0x0750000000000000000B = some (.jeq .r5 .r0 11) := by decide

/-- R64: JMP 3 is JEQ R0, R0, 3. -/
theorem test_jmp : encode (jmp 3) = 0x07000000000000000003#80 := by decide

/-! ### WellFormed: an ill-formed term for each check -/

theorem test_illformed_opcode : (Record.mk 10 0 0 0 0).opcodeDefined = false := by decide
theorem test_illformed_source : (Record.mk 5 7 0 0 0).srcNamed = false := by decide
theorem test_illformed_destination : (Record.mk 1 0 7 0 0).dstNamed = false := by decide
theorem test_wellformed_unused : (Record.mk 0 15 15 1 1).legal = true := by decide
theorem test_illformed_imem_index : (Params.mk 1 [(1, 5)] 0).wf = false := by decide
theorem test_illformed_imem_order : (Params.mk 3 [(1, 5), (1, 6)] 0).wf = false := by decide
theorem test_illformed_imem_zero : (Params.mk 3 [(1, 0)] 0).wf = false := by decide
theorem test_illformed_dmem : Memory.wf (0 : Word) 2 [(2, 7)] = false := by decide

/-! ### One step on a small state -/

/-- A RUNNING core of `ps` instructions and `ms` data words, with the word `w` at the PC and NOP elsewhere. -/
def at1 (ps ms : Size) (x : RegFile) (dmem : Memory Word) (w : InstrWord) : State where
  x := x
  dmem := dmem
  out := []
  rs := .running
  cause := none
  params := ⟨ps, Memory.write 0 [] x.pc.toNat w, ms⟩

/-- The state after the next step, where it answers one. -/
def after (s : State) : State :=
  match step s with
  | .next t => t
  | .fault _ => s
  | .refused _ => s

/-- The PC, RS and CAUSE after the next step. -/
def ends (s : State) : Word × RunState × Option FaultCause := ((after s).pc, (after s).rs, (after s).cause)

/-- All registers 0 but R0, R1, R2 and the PC. -/
def xs (pc r0 r1 r2 : Word) : RegFile := ⟨r0, r1, r2, 0, 0, 0, pc⟩

/-- V-N2, V-N3: unused fields ignored; the last index completes. -/
theorem test_nop : ends (at1 10 0 (xs 9 0 0 0) [] 0x00FFFFFFFFFFFFFFFFFF) = (10, .done, none) := by decide

/-- V-P3: PRINT PC prints its own index. -/
theorem test_print_pc : (after (at1 7 0 (xs 4 0 0 0) [] 0x09600000000000000000)).out = [4] := by decide

/-- V-PC2, V-PC5: SET to the PC is incremented, and the increment wraps. -/
theorem test_set_pc : ends (at1 2 0 (xs 1 0 0 0) [] 0x010600000000FFFFFFFF) = (0, .running, none) ∧
    ends (at1 1 0 (xs 0 0 0 0) [] 0x0106000000007FFFFFFF) = (0x80000000, .faulted, some .fetchOutOfRange) := by decide

/-- V-A2: overflow wraps. -/
theorem test_add_wraps : (after (at1 5 0 (xs 2 0x7FFFFFFF 1 0) [] 0x02100000000000000000)).x =
    xs 3 0x80000000 1 0 := by decide

/-- V-PC7: ADD PC, PC. -/
theorem test_add_pc : ends (at1 10 0 (xs 3 0 0 0) [] 0x02660000000000000000) = (7, .running, none) := by decide

/-- V-B1: source minus destination. -/
theorem test_sub : (after (at1 6 4 (xs 4 0 3 10) [] 0x03120000000000000000)).x = xs 5 0 3 0xFFFFFFF9 := by decide

/-- V-B5: the greatest minus -1 wraps. -/
theorem test_sub_wraps : (after (at1 6 0 (xs 0 0xFFFFFFFF 0x7FFFFFFF 0) [] 0x03100000000000000000)).x =
    xs 1 0x80000000 0x7FFFFFFF 0 := by decide

/-- V-L1. -/
theorem test_load : (after (at1 6 4 (xs 3 0 0 0) [(3, 10)] 0x04020000000300000000)).x = xs 4 0 0 10 := by decide

/-- V-L2, V-L7: offset = MEMSIZE; a reserved DST wins over a bad offset. -/
theorem test_load_faults :
    ends (at1 2 2 (xs 1 7 0 0) [] 0x04000000000200000000) = (1, .faulted, some .memOutOfRange) ∧
    ends (at1 3 1 (xs 0 0 0 0) [] 0x04090000000900000000) = (0, .faulted, some .invalidOpcode) := by decide

/-- V-T1, V-T5: a word stored; a word overwritten. -/
theorem test_store : (after (at1 6 4 (xs 1 10 0 0) [] 0x05000000000300000000)).dmem = [(3, 10)] ∧
    (after (at1 6 3 (xs 0 0 0xFFFFFFFF 0) [(2, 5)] 0x05100000000200000000)).dmem = [(2, 0xFFFFFFFF)] := by decide

/-- V-T2, V-T7. -/
theorem test_store_faults :
    ends (at1 6 4 (xs 1 10 0 0) [] 0x05000000000400000000) = (1, .faulted, some .memOutOfRange) ∧
    ends (at1 2 1 (xs 0 0 4 0) [] 0x05108000000000000000) = (0, .faulted, some .memOutOfRange) := by decide

/-- V-J1, V-J2, V-J5: taken, equal and so not taken, signed. -/
theorem test_jgt : ends (at1 5 0 (xs 4 1 0 5) [] 0x06200000000000000002) = (2, .running, none) ∧
    ends (at1 5 0 (xs 4 5 0 5) [] 0x06200000000000000002) = (5, .done, none) ∧
    ends (at1 5 0 (xs 2 0xFFFFFFFF 0 0) [] 0x06100000000000000000) = (0, .running, none) := by decide

/-- V-J6, V-J7, V-J8: target = PROGSIZE, untaken with a bad target, negative target. -/
theorem test_jgt_faults : ends (at1 5 0 (xs 2 0 1 0) [] 0x06100000000000000005) = (2, .faulted, some .jumpOutOfRange) ∧
    ends (at1 5 0 (xs 2 1 0 0) [] 0x06100000000000000007) = (2, .faulted, some .jumpOutOfRange) ∧
    ends (at1 5 0 (xs 2 0 1 0) [] 0x061000000000FFFFFFFF) = (2, .faulted, some .jumpOutOfRange) := by decide

/-- V-E1, V-E2. -/
theorem test_jeq : ends (at1 12 0 (xs 9 0 0 0) [] 0x0750000000000000000B) = (11, .running, none) ∧
    ends (at1 12 0 (xs 9 2 0 0) [] 0x0750000000000000000B) = (10, .running, none) := by decide

/-- V-I2, V-I3, V-I4. -/
theorem test_jmpi : ends (at1 3 0 (xs 1 0 3 0) [] 0x08010000000000000000) = (1, .faulted, some .jumpOutOfRange) ∧
    ends (at1 3 0 (xs 1 0 0xFFFFFFFF 0) [] 0x08010000000000000000) = (1, .faulted, some .jumpOutOfRange) ∧
    ends (at1 3 0 (xs 1 0 2 0) [] 0x08010000000000000000) = (2, .running, none) := by decide

/-- V-D3: an unrecognised opcode. -/
theorem test_illegal : ends (at1 4 4 (xs 2 0 1 2) [] 0x80120000000300000004) = (2, .faulted, some .invalidOpcode) := by
  decide

/-- P13: the empty program. -/
theorem test_reset_empty : (State.create ⟨0, [], 4⟩).rs = .done := by decide

/-- The host's placing of a word: SET runs as the first instruction after reset. -/
theorem test_withFetchWord : (after (State.reset.withFetchWord 80 0x010000000000000091D9)).x = xs 1 37337 0 0 := by
  decide

/-- The text table of R93. -/
theorem test_numeral : numeral 37337 = ['3', '7', '3', '3', '7'] ∧ numeral 0 = ['0'] ∧
    numeral 0xFFFFFFF9 = ['-', '7'] ∧
    numeral 0x80000000 = ['-', '2', '1', '4', '7', '4', '8', '3', '6', '4', '8'] := by decide

/-- A line of the notation of R62. -/
theorem test_listing : listing (.load 3 .r2) = ['L', 'O', 'A', 'D', ' ', '[', '3', ']', ',', ' ', 'R', '2'] := by
  decide

/-- R28, R135 and R148 on V-L2's outcome: code 1, and the PC of the LOAD. -/
theorem test_faultReport :
    faultReport (after (at1 2 2 (xs 1 7 0 0) [] 0x04000000000200000000)) = some (.memOutOfRange, 1) ∧
    (hostView (after (at1 2 2 (xs 1 7 0 0) [] 0x04000000000200000000))).final = some ⟨1, xs 1 7 0 0, []⟩ := by decide

/-! ### Witnesses of the hypotheses of the statements -/

/-- V-S1: a SET about to run. -/
def sSet : State := at1 2 0 (xs 0 0 0 0) [] 0x010000000000000091D9

/-- V-D3: an illegal word about to run. -/
def sIllegal : State := at1 4 4 (xs 2 0 1 2) [] 0x80120000000300000004

/-- V-L2: a LOAD at offset MEMSIZE. -/
def sBadLoad : State := at1 2 2 (xs 1 7 0 0) [] 0x04000000000200000000

/-- V-L3: a LOAD at the last legal offset. -/
def sLoad : State := at1 2 2 (xs 1 7 0 0) [(1, 0xFFFFFFFB)] 0x04000000000100000000

/-- V-J7: an untaken JGT with a target out of range. -/
def sBadJump : State := at1 5 0 (xs 2 1 0 0) [] 0x06100000000000000007

/-- V-J11: a taken JGT to the last index. -/
def sJump : State := at1 5 0 (xs 2 0 1 0) [] 0x0610ABCDEF0100000004

/-- V-PC4: a SET of the PC that leaves it out of range. -/
def sSetPc : State := at1 7 0 (xs 5 0 0 0) [] 0x01060000000000000063

/-- A program that stores R0 and loads it back at once, with V in R0. -/
def sStore : State where
  x := xs 0 10 0 0
  dmem := []
  out := []
  rs := .running
  cause := none
  params := ⟨3, [(0, 0x05000000000300000000), (2, 0x04020000000300000000)], 4⟩

theorem test_witness_EncodeOfDecodeClearsUnusedFields : decode 0x01F11234567800000001#80 = .ok (.set 1 .r1) := by decide

theorem test_witness_StepRunsTheDecodedInstruction :
    sSet.AtWord 0x010000000000000091D9 ∧ decode 0x010000000000000091D9#80 = .ok (.set 37337 .r0) := by decide

theorem test_witness_HaltedCoreNeverChanges : State.reset.rs ≠ .running ∧ (after sBadLoad).rs ≠ .running := by decide

/-- A legal and an illegal word; OPC 10, SRC 7 and DST 7 are the least illegal values. -/
theorem test_witness_InvalidOpcodeExactlyForIllegalWords :
    (sSet.AtWord 0x010000000000000091D9 ∧ sSet.cause = none ∧ step sSet = .next (after sSet)) ∧
    (sIllegal.AtWord 0x80120000000300000004 ∧ sIllegal.cause = none ∧ step sIllegal = .next (after sIllegal)) :=
  ⟨⟨by decide, by decide, rfl⟩, ⟨by decide, by decide, rfl⟩⟩

theorem test_boundary_illegal : (unpack 0x0A000000000000000000).opc.toNat = 10 ∧
    (unpack 0x02700000000000000000).src.toNat = 7 ∧ (unpack 0x02070000000000000000).dst.toNat = 7 := by decide

/-- The last legal offset and the first illegal one. -/
theorem test_witness_MemOutOfRangeExactlyForBadOffsets :
    (sLoad.rs = .running ∧ sLoad.cause = none ∧ step sLoad = .next (after sLoad)) ∧
    (sBadLoad.rs = .running ∧ sBadLoad.cause = none ∧ step sBadLoad = .next (after sBadLoad)) :=
  ⟨⟨rfl, rfl, rfl⟩, ⟨rfl, rfl, rfl⟩⟩

theorem test_witness_JumpOutOfRangeExactlyForBadTargets :
    (sJump.rs = .running ∧ sJump.cause = none ∧ step sJump = .next (after sJump)) ∧
    (sBadJump.rs = .running ∧ sBadJump.cause = none ∧ step sBadJump = .next (after sBadJump)) :=
  ⟨⟨rfl, rfl, rfl⟩, ⟨rfl, rfl, rfl⟩⟩

/-- V-PC4, and the PC just outside the program at either end: -1 (V-PC10) and PROGSIZE + 1. -/
theorem test_witness_FetchOutOfRangeOnlyAfterAWriteOfThePc :
    (sSetPc.Inv ∧ sSetPc.rs = .running ∧ step sSetPc = .next (after sSetPc) ∧
      (after sSetPc).cause = some .fetchOutOfRange) ∧
    ends (at1 10 0 (xs 3 0 0 0) [] 0x010600000000FFFFFFFE) = (0xFFFFFFFF, .faulted, some .fetchOutOfRange) ∧
    ends (at1 10 0 (xs 3 0 0 0) [] 0x0106000000000000000A) = (11, .faulted, some .fetchOutOfRange) :=
  ⟨⟨by decide, rfl, rfl, by decide⟩, by decide, by decide⟩

theorem test_witness_FaultingStepWritesOnlyTheStatus :
    (sBadLoad.rs = .running ∧ sBadLoad.cause = none ∧ step sBadLoad = .next (after sBadLoad) ∧
      (after sBadLoad).cause = some .memOutOfRange) ∧
    (after sBadJump).cause = some .jumpOutOfRange ∧ (after sIllegal).cause = some .invalidOpcode :=
  ⟨⟨rfl, rfl, rfl, by decide⟩, by decide, by decide⟩

theorem test_witness_BoundaryJudgesEveryStepAndReset :
    sLoad.rs = .running ∧ sLoad.cause = none ∧ step sLoad = .next (after sLoad) := ⟨rfl, rfl, rfl⟩

/-- A taken jump, a data write to the PC (V-PC1), and neither. -/
theorem test_witness_OnlyJumpsAndPcWritesLeaveSequentialOrder :
    (currentInstr sJump = some (.jgt .r1 .r0 4) ∧ step sJump = .next (after sJump) ∧ (after sJump).rs ≠ .faulted ∧
      takenTarget sJump (.jgt .r1 .r0 4) = some 4) ∧
    (currentInstr (at1 10 0 (xs 0 0 0 0) [] 0x01060000000000000004) = some (.set 4 .pc) ∧
      (after (at1 10 0 (xs 0 0 0 0) [] 0x01060000000000000004)).rs ≠ .faulted) ∧
    (currentInstr sSet = some (.set 37337 .r0) ∧ takenTarget sSet (.set 37337 .r0) = none ∧
      dataWriteToPc sSet (.set 37337 .r0) = none ∧ (after sSet).rs ≠ .faulted) :=
  ⟨⟨by decide, rfl, by decide, by decide⟩, by decide, by decide⟩

theorem test_witness_NopOnlyAdvances : sSet.rs = .running := rfl
theorem test_witness_PrintAppendsTheSource : sSet.rs = .running := rfl
theorem test_witness_SetWritesTheImmediate : sSet.rs = .running := rfl
theorem test_witness_AddWritesTheWrappedSum : sSet.rs = .running := rfl
theorem test_witness_SubWritesSourceMinusDestination : sSet.rs = .running := rfl

theorem test_witness_LoadWritesTheMemoryWord : sLoad.rs = .running ∧ (1 : Word).toNat < sLoad.memSize := by decide

theorem test_witness_StoreWritesOneMemoryWord :
    sStore.rs = .running ∧ sStore.MemoryInv ∧ (3 : Word).toNat < sStore.memSize := by decide

/-- The first and the last valid target. -/
theorem test_witness_JgtJumpsOnSignedGreater : sJump.rs = .running ∧ 0 ≤ (4 : Word).toInt ∧
    (4 : Word).toInt < (sJump.progSize : Int) ∧ (0 : Word).toInt < (sJump.progSize : Int) := by decide

theorem test_witness_JeqJumpsOnEqualWords : sJump.rs = .running ∧ 0 ≤ (4 : Word).toInt ∧
    (4 : Word).toInt < (sJump.progSize : Int) := by decide

theorem test_witness_JmpiJumpsToTheRegister : sJump.rs = .running ∧ 0 ≤ (readReg sJump .r1).toInt ∧
    (readReg sJump .r1).toInt < (sJump.progSize : Int) := by decide

theorem test_witness_LoadAndStoreFaultOutOfRange : sBadLoad.memSize ≤ (2 : Word).toNat := by decide

/-- The least target too great, a negative one, and a register that holds a bad target. -/
theorem test_witness_JumpsFaultOnInvalidTargets : (sBadJump.progSize : Int) ≤ (5 : Word).toInt ∧
    (0xFFFFFFFF : Word).toInt < 0 ∧ (sBadLoad.progSize : Int) ≤ (readReg sBadLoad .r0).toInt := by decide

theorem test_witness_NopWordRule : (at1 10 0 (xs 9 0 0 0) [] 0x00FFFFFFFFFFFFFFFFFF).AtWord 0x00FFFFFFFFFFFFFFFFFF ∧
    (unpack 0x00FFFFFFFFFFFFFFFFFF).opc = 0 := by decide

theorem test_witness_PrintWordRule :
    ((at1 7 0 (xs 4 0 0 0) [] 0x09600000000000000000).AtWord 0x09600000000000000000 ∧
      (unpack 0x09600000000000000000).opc = 9 ∧ (unpack 0x09600000000000000000).src = Reg.pc.field) ∧
    ((at1 3 0 (xs 0 0 0 0) [] 0x09700000000000000000).AtWord 0x09700000000000000000 ∧
      7 ≤ (unpack 0x09700000000000000000).src.toNat) := by decide

theorem test_witness_SetWordRule :
    (sSetPc.AtWord 0x01060000000000000063 ∧ (unpack 0x01060000000000000063).opc = 1 ∧
      (unpack 0x01060000000000000063).dst = Reg.pc.field) ∧
    ((at1 2 0 (xs 0 0 0 0) [] 0x01070000000000000001).AtWord 0x01070000000000000001 ∧
      7 ≤ (unpack 0x01070000000000000001).dst.toNat) := by decide

theorem test_witness_AddWordRule :
    ((at1 10 0 (xs 3 0 0 0) [] 0x02660000000000000000).AtWord 0x02660000000000000000 ∧
      (unpack 0x02660000000000000000).opc = 2 ∧ (unpack 0x02660000000000000000).src = Reg.pc.field ∧
      (unpack 0x02660000000000000000).dst = Reg.pc.field) ∧
    ((at1 2 0 (xs 0 0 1 0) [] 0x02710000000000000000).AtWord 0x02710000000000000000 ∧
      7 ≤ (unpack 0x02710000000000000000).src.toNat) := by decide

theorem test_witness_SubWordRule :
    ((at1 6 4 (xs 4 0 3 10) [] 0x03120000000000000000).AtWord 0x03120000000000000000 ∧
      (unpack 0x03120000000000000000).opc = 3 ∧ (unpack 0x03120000000000000000).src = Reg.r1.field ∧
      (unpack 0x03120000000000000000).dst = Reg.r2.field) ∧
    ((at1 2 0 (xs 0 0 1 0) [] 0x03170000000000000000).AtWord 0x03170000000000000000 ∧
      7 ≤ (unpack 0x03170000000000000000).dst.toNat) := by decide

/-- The last legal offset, the first illegal one (V-L2), and a reserved DST with a bad offset (V-L7). -/
theorem test_witness_LoadWordRule :
    (sLoad.AtWord 0x04000000000100000000 ∧ (unpack 0x04000000000100000000).opc = 4 ∧
      (unpack 0x04000000000100000000).dst = Reg.r0.field ∧
      (unpack 0x04000000000100000000).off.toNat < sLoad.memSize) ∧
    (sBadLoad.AtWord 0x04000000000200000000 ∧ sBadLoad.memSize ≤ (unpack 0x04000000000200000000).off.toNat) ∧
    ((at1 3 1 (xs 0 0 0 0) [] 0x04090000000900000000).AtWord 0x04090000000900000000 ∧
      7 ≤ (unpack 0x04090000000900000000).dst.toNat) := by decide

theorem test_witness_StoreWordRule :
    (sStore.AtWord 0x05000000000300000000 ∧ sStore.MemoryInv ∧ (unpack 0x05000000000300000000).opc = 5 ∧
      (unpack 0x05000000000300000000).src = Reg.r0.field ∧
      (unpack 0x05000000000300000000).off.toNat < sStore.memSize) ∧
    ((at1 6 4 (xs 1 10 0 0) [] 0x05000000000400000000).AtWord 0x05000000000400000000 ∧
      (4 : Nat) ≤ (unpack 0x05000000000400000000).off.toNat) ∧
    ((at1 2 1 (xs 0 0 0 0) [] 0x05700000000500000000).AtWord 0x05700000000500000000 ∧
      7 ≤ (unpack 0x05700000000500000000).src.toNat) := by decide

theorem test_witness_JgtWordRule :
    (sJump.AtWord 0x0610ABCDEF0100000004 ∧ (unpack 0x0610ABCDEF0100000004).opc = 6 ∧
      (unpack 0x0610ABCDEF0100000004).src = Reg.r1.field ∧ (unpack 0x0610ABCDEF0100000004).dst = Reg.r0.field ∧
      (unpack 0x0610ABCDEF0100000004).imm.toInt < (sJump.progSize : Int)) ∧
    (sBadJump.AtWord 0x06100000000000000007 ∧
      ¬ (unpack 0x06100000000000000007).imm.toInt < (sBadJump.progSize : Int)) ∧
    ((at1 2 0 (xs 0 0 0 0) [] 0x06800000000000000009).AtWord 0x06800000000000000009 ∧
      7 ≤ (unpack 0x06800000000000000009).src.toNat) := by decide

/-- V-E1, V-E4 and V-E7. -/
theorem test_witness_JeqWordRule :
    ((at1 12 0 (xs 9 0 0 0) [] 0x0750000000000000000B).AtWord 0x0750000000000000000B ∧
      (unpack 0x0750000000000000000B).opc = 7 ∧ (unpack 0x0750000000000000000B).src = Reg.r5.field ∧
      (unpack 0x0750000000000000000B).dst = Reg.r0.field) ∧
    ((at1 12 0 (xs 0 0 1 0) [] 0x0701000000000000000C).AtWord 0x0701000000000000000C ∧
      ¬ (unpack 0x0701000000000000000C).imm.toInt < 12) ∧
    ((at1 12 0 (xs 5 0 0 0) [] 0x07F10000000000000000).AtWord 0x07F10000000000000000 ∧
      7 ≤ (unpack 0x07F10000000000000000).src.toNat) := by decide

/-- V-I4, V-I2 and V-I9. -/
theorem test_witness_JmpiWordRule :
    ((at1 3 0 (xs 1 0 2 0) [] 0x08010000000000000000).AtWord 0x08010000000000000000 ∧
      (unpack 0x08010000000000000000).opc = 8 ∧ (unpack 0x08010000000000000000).dst = Reg.r1.field) ∧
    (at1 3 0 (xs 1 0 3 0) [] 0x08010000000000000000).AtWord 0x08010000000000000000 ∧
    ((at1 3 0 (xs 1 0 0 0) [] 0x08070000000000000000).AtWord 0x08070000000000000000 ∧
      7 ≤ (unpack 0x08070000000000000000).dst.toNat) := by decide

theorem test_witness_SubTwiceRestoresTheDestination : ∃ t u : State, Reg.r1 ≠ .pc ∧ Reg.r2 ≠ .pc ∧ Reg.r1 ≠ .r2 ∧
    exec (.sub .r1 .r2) sIllegal = .next t ∧ exec (.sub .r1 .r2) t = .next u :=
  ⟨_, _, by decide, by decide, by decide, rfl, rfl⟩

/-- No instruction of a run of one step from a state about to execute `i` stores, where `i` does not. -/
theorem noStoreTo_one {o : Word} {s : State} {i : Instr} (hi : currentInstr s = some i)
    (h : storedOffset i ≠ some o) : NoStoreTo o 1 s := by
  intro k hk u hu j hj
  obtain rfl : k = 0 := by omega
  cases (run_zero s).symm.trans hu
  cases hi.symm.trans hj
  exact h

/-- STORE R0, [3]; NOP; LOAD [3], R2. -/
theorem test_witness_StoreThenLoadReturnsTheValue :
    sStore.Inv ∧ currentInstr sStore = some (.store .r0 3) ∧ step sStore = .next (after sStore) ∧
    (after sStore).rs ≠ .faulted ∧ run 1 (after sStore) = .next (after (after sStore)) ∧
    NoStoreTo 3 1 (after sStore) ∧ currentInstr (after (after sStore)) = some (.load 3 .r2) ∧
    step (after (after sStore)) = .next (after (after (after sStore))) ∧
    readReg (after (after (after sStore))) .r2 = 10 :=
  ⟨by decide, by decide, rfl, by decide, rfl, noStoreTo_one (i := .nop) (by decide) (by decide), by decide, rfl, by decide⟩

theorem test_witness_NeverStoredWordReadsZero : sSet.params.wf = true ∧
    run 1 (State.create sSet.params) = .next (after (State.create sSet.params)) ∧
    NoStoreTo 0 1 (State.create sSet.params) :=
  ⟨by decide, rfl, noStoreTo_one (i := .set 37337 .r0) (by decide) (by decide)⟩

theorem test_witness_StepActsOnThePortsAsStated :
    (sStore.Inv ∧ sStore.rs = .running ∧ step sStore = .next (after sStore) ∧
      (portActivity sStore).data = some (.write 3 10)) ∧
    (sBadLoad.Inv ∧ step sBadLoad = .next (after sBadLoad) ∧ (after sBadLoad).cause = some .memOutOfRange) :=
  ⟨⟨by decide, rfl, rfl, by decide⟩, by decide, rfl, by decide⟩

theorem test_witness_NothingReadsTheOutputBack :
    step (at1 7 0 (xs 4 0 0 0) [] 0x09600000000000000000) =
      .next (after (at1 7 0 (xs 4 0 0 0) [] 0x09600000000000000000)) := rfl

theorem test_witness_ParametersNeverChange :
    run 2 (State.create sStore.params) = .next (after (after (State.create sStore.params))) := rfl

theorem test_witness_EveryStepKeepsTheInvariant : sStore.Inv ∧ step sStore = .next (after sStore) :=
  ⟨by decide, rfl⟩

theorem test_witness_ResetMeetsTheInvariant : sStore.params.wf = true := by decide

/-- V-L4 from reset: with MEMSIZE = 0 the program's one LOAD faults in its first step, which meets the last clause. -/
theorem test_witness_PcStaysWhereTheRunStateSays : (Params.mk 1 [(0, 0x04000000000000000000)] 0).wf = true ∧
    run 0 (State.create ⟨1, [(0, 0x04000000000000000000)], 0⟩) =
      .next (State.create ⟨1, [(0, 0x04000000000000000000)], 0⟩) ∧
    (State.create ⟨1, [(0, 0x04000000000000000000)], 0⟩).rs = .running ∧
    step (State.create ⟨1, [(0, 0x04000000000000000000)], 0⟩) =
      .next (after (State.create ⟨1, [(0, 0x04000000000000000000)], 0⟩)) ∧
    (after (State.create ⟨1, [(0, 0x04000000000000000000)], 0⟩)).cause = some .memOutOfRange :=
  ⟨by decide, rfl, rfl, rfl, by decide⟩

/-- Both cases of RS after reset. -/
theorem test_witness_ResetLeavesTheStatedValues :
    0 < sStore.params.progSize.val ∧ (Params.mk 0 [] 4).progSize.val = 0 := by decide

/-- P9: the one-instruction program JMPI PC. -/
theorem test_witness_JmpiThroughThePcNeverEnds :
    (State.create ⟨1, [(0, 0x08060000000000000000)], 0⟩).Inv ∧
    currentInstr (State.create ⟨1, [(0, 0x08060000000000000000)], 0⟩) = some (.jmpi .pc) := by decide

/-- A step that completes the run (V-L3), and one that does not. -/
theorem test_witness_CompletionIsThePcAtTheEnd :
    (sLoad.Inv ∧ sLoad.rs = .running ∧ step sLoad = .next (after sLoad) ∧ (after sLoad).Completed) ∧
    (sSetPc.Inv ∧ step sSetPc = .next (after sSetPc) ∧ ¬ (after sSetPc).Completed) :=
  ⟨⟨by decide, rfl, rfl, by decide⟩, by decide, rfl, by decide⟩

theorem test_witness_HostSeesTheStateOnceHalted : sSet.rs = .running ∧ State.reset.rs ≠ .running := by decide

end Sys2Proof.Tests
end

section
/-! PROOF. The state: what one instruction can do to it, the run loop, the invariant of every run, the write-only output,
the values after reset, the host's view (spec/10_state.md rules R17, R20, R22, R24, R27, R28). -/

namespace Sys2Proof.Machine

/-! ### What an instruction can do -/

/-- `Effect s u`: `u` is what the execute and sequence phases can make of `s`, before the boundary evaluation, when they
raise no fault (R76 to R78). -/
inductive Effect (s : State) : State → Prop where
  /-- A taken jump to a valid target (R77, R113). -/
  | jump (t : Word) (ht : validTarget s t = true) : Effect s (writeReg .pc t s)
  /-- NOP, or a jump that is not taken (R78, R90). -/
  | plain : Effect s (advance s)
  /-- One register written, the PC like any other (R12, R13). -/
  | register (d : Reg) (v : Word) : Effect s (advance (writeReg d v s))
  /-- One word of the data memory written, at an offset in range (R107). -/
  | memory (a v : Word) (ha : inRange s a = true) : Effect s (advance (memWrite a v s))
  /-- One word printed (R91). -/
  | printed (v : Word) : Effect s (advance (output v s))

/-- Once its target has passed the check, a jump has an effect, taken or not (R117). -/
theorem Effect.of_validTarget {s : State} {t : Word} (ht : validTarget s t = true) (c : Prop) [Decidable c] :
    Effect s (if c then writeReg .pc t s else advance s) := by
  split
  · exact .jump t ht
  · exact .plain

/-- An instruction raises a fault other than the boundary's, before it has written anything (R79, R80), or it has an
effect, which the boundary evaluation then judges (R72). -/
theorem exec_spec (i : Instr) (s : State) :
    (∃ c, c ≠ .fetchOutOfRange ∧ exec i s = .next (raiseFault c s)) ∨
    (∃ u, Effect s u ∧ exec i s = .next (boundary u)) := by
  cases i with
  | nop => exact .inr ⟨_, .plain, exec_nop s⟩
  | set imm dst => exact .inr ⟨_, .register dst imm, exec_set imm dst s⟩
  | add src dst => exact .inr ⟨_, .register dst _, exec_add src dst s⟩
  | sub src dst => exact .inr ⟨_, .register dst _, exec_sub src dst s⟩
  | load off dst =>
    rw [exec_load]
    split
    · exact .inr ⟨_, .register dst _, rfl⟩
    · exact .inl ⟨.memOutOfRange, by decide, rfl⟩
  | store src off =>
    rw [exec_store]
    split
    · next ha => exact .inr ⟨_, .memory off _ ha, rfl⟩
    · exact .inl ⟨.memOutOfRange, by decide, rfl⟩
  | jgt src dst target =>
    rw [exec_jgt]
    split
    · next ht => exact .inr ⟨_, .of_validTarget ht _, rfl⟩
    · exact .inl ⟨.jumpOutOfRange, by decide, rfl⟩
  | jeq src dst target =>
    rw [exec_jeq]
    split
    · next ht => exact .inr ⟨_, .of_validTarget ht _, rfl⟩
    · exact .inl ⟨.jumpOutOfRange, by decide, rfl⟩
  | jmpi dst =>
    rw [exec_jmpi]
    split
    · next ht => exact .inr ⟨_, .jump _ ht, rfl⟩
    · exact .inl ⟨.jumpOutOfRange, by decide, rfl⟩
  | print src => exact .inr ⟨_, .printed _, exec_print src s⟩

namespace Effect

variable {s u : State}

/-- No effect writes RS. -/
theorem rs_eq (h : Effect s u) : u.rs = s.rs := by cases h <;> rfl

/-- No effect writes CAUSE. -/
theorem cause_eq (h : Effect s u) : u.cause = s.cause := by cases h <;> rfl

/-- No effect writes the parameters (R5). -/
theorem params_eq (h : Effect s u) : u.params = s.params := by cases h <;> rfl

/-- An effect keeps the canonical form of the data memory (R22). -/
theorem memoryInv (h : Effect s u) (hm : s.MemoryInv) : u.MemoryInv := by
  cases h with
  | jump t ht => exact hm
  | plain => exact hm
  | register d v => exact hm
  | memory a v ha => exact memWrite_keeps_wf hm v ha
  | printed v => exact hm

end Effect

/-- A step of a core whose PC is in the program raises a fault other than the boundary's and leaves the rest alone, or
has an effect, which the boundary evaluation judges (R71, R79). -/
theorem step_running_spec {s t : State} (hr : s.rs = .running) (hf : fetchInRange s = true) (h : step s = .next t) :
    (∃ c, c ≠ .fetchOutOfRange ∧ t = raiseFault c s) ∨ (∃ u, Effect s u ∧ t = boundary u) := by
  rcases step_spec h with ⟨hn, _⟩ | ⟨_, hn, _⟩ | ⟨_, _, _, ht⟩ | ⟨_, _, i, _, hi⟩
  · exact absurd hr hn
  · simp [hf] at hn
  · exact .inl ⟨.invalidOpcode, by decide, ht⟩
  · rcases exec_spec i s with ⟨c, hc, e⟩ | ⟨u, hu, e⟩
    · exact .inl ⟨c, hc, by simpa [hi] using e⟩
    · exact .inr ⟨u, hu, by simpa [hi] using e⟩

/-! ### The run loop -/

/-- A run of `n + 1` steps that answers a state began with a step that did. -/
theorem exists_step_of_run_succ {s t : State} {n : Nat} (h : run (n + 1) s = .next t) :
    ∃ u, step s = .next u ∧ run n u = .next t := by
  cases hs : step s with
  | next u => exact ⟨u, rfl, by rw [← h, run_succ hs]⟩
  | fault r => cases r
  | refused r =>
    have : run (n + 1) s = .refused r := by
      change Host.Core.run _ _ _ = _
      simp only [Host.Core.run, show Sys2Proof.core.step s = .refused r from hs]
      rfl
    simp [this] at h

/-- What holds at the start and is kept by every step holds in every state of the run. -/
theorem run_invariant {P : State → Prop} (hstep : ∀ s t, P s → step s = .next t → P t) :
    ∀ (n : Nat) {s t : State}, P s → run n s = .next t → P t := by
  intro n
  induction n with
  | zero =>
    intro s t hs h
    cases h
    exact hs
  | succ n ih =>
    intro s t hs h
    obtain ⟨u, hu, hrun⟩ := exists_step_of_run_succ h
    exact ih (hstep s u hs hu) hrun

/-! ### The invariant of PC, status, memory and parameters -/

/-- A good RUNNING core fetches inside its program (R17). -/
theorem State.Inv.fetchInRange {s : State} (h : s.Inv) (hr : s.rs = .running) : fetchInRange s = true := by
  obtain ⟨⟨hrun, _⟩, _⟩ := h
  exact (validTarget_iff s s.pc).2 (hrun hr)

/-- A good RUNNING core has CAUSE 0 (R20). -/
theorem State.Inv.cause_eq_none {s : State} (h : s.Inv) (hr : s.rs = .running) : s.cause = none := by
  obtain ⟨_, hstatus, _⟩ := h
  by_contra hc
  simp [hstatus.1 hc] at hr

/-- A fault of decode or execute leaves the PC where it stood, at the faulting instruction (R17, R137). -/
theorem inv_raiseFault {s : State} {c : FaultCause} (hs : s.Inv) (hr : s.rs = .running) (hc : c ≠ .fetchOutOfRange) :
    (raiseFault c s).Inv := by
  obtain ⟨⟨hrun, _⟩, _, hmem, hpar⟩ := hs
  refine ⟨⟨?running, ?done, ?faulted, ?fetchFault⟩, by simp [State.StatusInv], hmem, hpar⟩
  case running => simp
  case done => simp
  case faulted => exact fun _ _ => hrun hr
  case fetchFault => simp [hc]

/-- The boundary evaluation brings the PC and the status of a RUNNING core with CAUSE 0 to agree, wherever the PC stands
(R72). -/
theorem inv_boundary {u : State} (hr : u.rs = .running) (hc : u.cause = none) (hm : u.MemoryInv) (hp : u.ParamsInv) :
    (boundary u).Inv := by
  rcases boundary_spec u with ⟨hpc, e⟩ | ⟨hpc, e⟩ | ⟨hlo, hhi, e⟩ <;> rw [e]
  · exact ⟨⟨by simp, fun _ => hpc, by simp, by simp⟩, by simp [State.StatusInv, hc], hm, hp⟩
  · exact ⟨⟨by simp, by simp, by simp, fun _ _ => hpc⟩, by simp [State.StatusInv], hm, hp⟩
  · exact ⟨⟨fun _ => ⟨hlo, hhi⟩, by simp [hr], by simp [hr], by simp [hr]⟩, by simp [State.StatusInv, hr, hc], hm, hp⟩

/-- An effect on a good RUNNING core, judged, leaves a good core. -/
theorem inv_boundary_of_effect {s u : State} (hs : s.Inv) (hr : s.rs = .running) (h : Effect s u) :
    (boundary u).Inv := by
  have hcause := hs.cause_eq_none hr
  obtain ⟨_, _, hmem, hpar⟩ := hs
  refine inv_boundary (h.rs_eq.trans hr) (h.cause_eq.trans hcause) (h.memoryInv hmem) ?_
  rwa [State.ParamsInv, h.params_eq]

/-- Settles O48: a halted core stays as it is; a RUNNING one fetches inside its program, and then either a fault is raised
at the PC or the boundary evaluation judges an effect. -/
theorem everyStepKeepsTheInvariant : Obligations.EveryStepKeepsTheInvariant := by
  intro s t hs h
  by_cases hr : s.rs = .running
  · rcases step_running_spec hr (hs.fetchInRange hr) h with ⟨c, hc, rfl⟩ | ⟨u, hu, rfl⟩
    · exact inv_raiseFault hs hr hc
    · exact inv_boundary_of_effect hs hr hu
  · rcases step_spec h with ⟨_, rfl⟩ | ⟨hr', _⟩ | ⟨hr', _⟩ | ⟨hr', _⟩
    · exact hs
    all_goals exact absurd hr' hr

/-! ### Nothing reads the output back -/

/-- `s` with words printed before those it holds. -/
def prependOut (earlier : List Word) (s : State) : State := { s with out := earlier ++ s.out }

/-- The next state of an outcome changed by `f`; a fault or a refusal as it is. -/
def mapNext (f : State → State) :
    Host.Outcome State Fault Refusal → Host.Outcome State Fault Refusal
  | .next s => .next (f s)
  | .fault r => .fault r
  | .refused r => .refused r

@[simp] theorem mapNext_next (f : State → State) (s : State) : mapNext f (.next s) = .next (f s) := rfl

@[simp] theorem mapNext_ite (f : State → State) (c : Prop) [Decidable c]
    (a b : Host.Outcome State Fault Refusal) :
    mapNext f (if c then a else b) = if c then mapNext f a else mapNext f b := apply_ite (mapNext f) c a b

section PrependOut

variable (e : List Word) (s : State)

/-! No test and no operand reads OUT (R24). -/

@[simp] theorem fetch_prependOut : fetch (prependOut e s) = fetch s := rfl
@[simp] theorem isRunning_prependOut : isRunning (prependOut e s) = isRunning s := rfl
@[simp] theorem fetchInRange_prependOut : fetchInRange (prependOut e s) = fetchInRange s := rfl
@[simp] theorem memRead_prependOut (a : Word) : memRead (prependOut e s) a = memRead s a := rfl
@[simp] theorem inRange_prependOut (a : Word) : inRange (prependOut e s) a = inRange s a := rfl
@[simp] theorem validTarget_prependOut (t : Word) : validTarget (prependOut e s) t = validTarget s t := rfl

@[simp] theorem readReg_prependOut (r : Reg) : readReg (prependOut e s) r = readReg s r :=
  readReg_congr (s := s) (t := prependOut e s) rfl r

/-! Every operation does the same behind earlier output. -/

@[simp] theorem writeReg_prependOut (r : Reg) (v : Word) :
    writeReg r v (prependOut e s) = prependOut e (writeReg r v s) := rfl

@[simp] theorem memWrite_prependOut (a v : Word) :
    memWrite a v (prependOut e s) = prependOut e (memWrite a v s) := rfl

@[simp] theorem advance_prependOut : advance (prependOut e s) = prependOut e (advance s) := rfl

@[simp] theorem raiseFault_prependOut (c : FaultCause) :
    raiseFault c (prependOut e s) = prependOut e (raiseFault c s) := rfl

/-- PRINT only appends (R92). -/
@[simp] theorem output_prependOut (v : Word) : output v (prependOut e s) = prependOut e (output v s) := by
  simp [output, prependOut]

@[simp] theorem ite_prependOut (c : Prop) [Decidable c] (a b : State) :
    (if c then prependOut e a else prependOut e b) = prependOut e (if c then a else b) :=
  (apply_ite (prependOut e) c a b).symm

@[simp] theorem boundary_prependOut : boundary (prependOut e s) = prependOut e (boundary s) := by
  simp only [boundary, ← ite_prependOut]
  rfl

/-- Each instruction commutes with printing words before it. -/
theorem exec_prependOut (i : Instr) : exec i (prependOut e s) = mapNext (prependOut e) (exec i s) := by
  cases i with
  | nop => simp [exec_nop]
  | set imm dst => simp [exec_set]
  | add src dst => simp [exec_add]
  | sub src dst => simp [exec_sub]
  | load off dst => simp [exec_load]
  | store src off => simp [exec_store]
  | jgt src dst target => simp [exec_jgt]
  | jeq src dst target => simp [exec_jeq]
  | jmpi dst => simp [exec_jmpi]
  | print src => simp [exec_print]

/-- A step commutes with printing words before it. -/
theorem step_prependOut : step (prependOut e s) = mapNext (prependOut e) (step s) := by
  unfold step
  rw [isRunning_prependOut, fetchInRange_prependOut, fetch_prependOut]
  split
  · split
    · cases decode (fetch s) with
      | ok i => exact exec_prependOut e s i
      | error _ => simp [illegalStep]
    · simp [outOfRangeStep]
  · simp [haltedStep]

end PrependOut

/-- Settles O46: a step commutes with printing words before it. -/
theorem nothingReadsTheOutputBack : Obligations.NothingReadsTheOutputBack := by
  intro s t earlier h
  change step (prependOut earlier s) = .next (prependOut earlier t)
  rw [step_prependOut, h, mapNext_next]

/-! ### Reset -/

/-- Reset leaves no fault (R27). -/
theorem create_rs_ne_faulted (p : Params) : (State.create p).rs ≠ .faulted := by
  rw [create_rs]
  split <;> decide

/-- The state after reset is good: the PC is 0, which is PROGSIZE where RS is DONE, and below it otherwise (R17, R27). -/
theorem inv_create {p : Params} (hp : p.wf = true) : (State.create p).Inv := by
  have hpc : (State.create p).pc.toInt = 0 := rfl
  refine ⟨⟨?running, ?done, ?faulted, ?fetchFault⟩, ?status, create_keeps_wf p, hp⟩
  case running =>
    intro hr
    have hne : p.progSize.val ≠ 0 := by
      intro h0
      simp [h0] at hr
    rw [hpc, create_progSize]
    omega
  case done =>
    intro hd
    have hzero : p.progSize.val = 0 := by
      by_contra h0
      simp [h0] at hd
    rw [hpc, create_progSize, hzero, Nat.cast_zero]
  case faulted => exact fun hf => absurd hf (create_rs_ne_faulted p)
  case fetchFault => exact fun hf => absurd hf (create_rs_ne_faulted p)
  case status => exact ⟨fun hc => absurd (create_cause p) hc, fun hf => absurd hf (create_rs_ne_faulted p)⟩

/-- Settles O49: the parameters of `State.reset` are well formed, their program being empty. -/
theorem resetMeetsTheInvariant : Obligations.ResetMeetsTheInvariant :=
  ⟨fun _ hp => inv_create hp, inv_create (p := unloadedParams) wf_empty⟩

/-- Settles O51, from the fields of `State.create`: a register file of zeros, and no word listed in the data memory. -/
theorem resetLeavesTheStatedValues : Obligations.ResetLeavesTheStatedValues := by
  intro p
  refine ⟨fun r => ?registers, fun a => rfl, create_out p, create_cause p, fun h => ?running, fun h => ?done⟩
  case registers => cases r <;> rfl
  case running => simp [Nat.ne_of_gt h]
  case done => simp [h]

/-! ### The PC in every state of every run -/

/-- Every state of every run is good. -/
theorem inv_of_run_create {p : Params} {n : Nat} {t : State} (hp : p.wf = true)
    (h : run n (State.create p) = .next t) : t.Inv :=
  run_invariant everyStepKeepsTheInvariant n (inv_create hp) h

/-- The boundary evaluation raises no cause but its own (R72, R134). -/
theorem boundary_faulted {u : State} (hr : u.rs = .running) (hf : (boundary u).rs = .faulted) :
    (boundary u).cause = some .fetchOutOfRange := by
  rcases boundary_spec u with ⟨_, e⟩ | ⟨_, e⟩ | ⟨_, _, e⟩ <;> rw [e] at hf ⊢
  · cases hf
  · rfl
  · simp [hr] at hf

/-- Settles O50, from the invariant of every run; a fault with CAUSE 1, 2 or 3 is not the boundary's, so it was raised
before the PC was written. -/
theorem pcStaysWhereTheRunStateSays : Obligations.PcStaysWhereTheRunStateSays := by
  intro p n t hp hrun
  have ht := inv_of_run_create hp hrun
  have ⟨hpc, _⟩ := ht
  refine ⟨hpc, fun u hr hstep hfault hcause => ?_⟩
  rcases step_running_spec hr (ht.fetchInRange hr) hstep with ⟨c, _, rfl⟩ | ⟨v, hv, rfl⟩
  · exact raiseFault_pc c t
  · exact absurd (boundary_faulted (hv.rs_eq.trans hr) hfault) hcause

/-! ### The host's view -/

/-- Settles O55, by the three run states: the view opens in both halted ones. -/
theorem hostSeesTheStateOnceHalted : Obligations.HostSeesTheStateOnceHalted := by
  intro s
  refine ⟨rfl, rfl, fun hr => ?running, fun hr => ?halted⟩
  case running => simp [hostView, hr]
  case halted =>
    cases hs : s.rs with
    | running => exact absurd hs hr
    | done => simp [hostView, hs]
    | faulted => simp [hostView, hs]

end Sys2Proof.Machine
end

section
/-! PROOF. The data memory: only a STORE writes it, and only at its own offset, so a word keeps its value over every run
without a STORE to it (spec/20_memory.md rules R37, R43). -/

namespace Sys2Proof.Machine

/-! ### What an instruction leaves of the data memory -/

/-- A jump that passed its target check writes no word of the data memory, taken or not. -/
theorem jump_dmem (c : Prop) [Decidable c] (t : Word) (s : State) :
    (boundary (if c then writeReg .pc t s else advance s)).dmem = s.dmem := by
  split <;> simp

/-- An instruction that is no STORE leaves the data memory as it is. -/
theorem exec_dmem {s t : State} {i : Instr} (hi : storedOffset i = none) (h : exec i s = .next t) :
    t.dmem = s.dmem := by
  cases i with
  | nop => cases (exec_nop s).symm.trans h; simp
  | set imm dst => cases (exec_set imm dst s).symm.trans h; simp
  | add src dst => cases (exec_add src dst s).symm.trans h; simp
  | sub src dst => cases (exec_sub src dst s).symm.trans h; simp
  | load off dst =>
    rw [exec_load] at h
    split at h <;> cases h <;> simp
  | store src off => cases hi
  | jgt src dst target =>
    rw [exec_jgt] at h
    split at h <;> cases h
    · exact jump_dmem _ target s
    · simp
  | jeq src dst target =>
    rw [exec_jeq] at h
    split at h <;> cases h
    · exact jump_dmem _ target s
    · simp
  | jmpi dst =>
    rw [exec_jmpi] at h
    split at h <;> cases h <;> simp
  | print src => cases (exec_print src s).symm.trans h; simp

/-- A STORE leaves every word but the one at its own offset, whether it completes or faults (R37, R107). -/
theorem exec_store_memRead {s t : State} {src : Reg} {off o : Word} (hm : s.MemoryInv) (ho : off ≠ o)
    (h : exec (.store src off) s = .next t) : memRead t o = memRead s o := by
  rw [exec_store] at h
  split at h <;> cases h
  · calc memRead (boundary (advance (memWrite off (readReg s src) s))) o
        = memRead (memWrite off (readReg s src) s) o := memRead_congr (by simp) o
      _ = memRead s o := by rw [memRead_memWrite hm, if_neg ho.symm]
  · exact memRead_congr (raiseFault_dmem _ s) o

/-- An instruction that does not store to an offset leaves the word there. -/
theorem exec_memRead {s t : State} {i : Instr} {o : Word} (hm : s.MemoryInv) (hi : storedOffset i ≠ some o)
    (h : exec i s = .next t) : memRead t o = memRead s o := by
  cases i with
  | store src off => exact exec_store_memRead hm (by simpa [storedOffset] using hi) h
  | _ => exact memRead_congr (exec_dmem rfl h) o

/-! ### What a run leaves of the data memory -/

/-- A step whose instruction, if it has one, does not store to an offset leaves the word there (R71, R79). -/
theorem step_memRead {s t : State} {o : Word} (hm : s.MemoryInv)
    (hi : ∀ i, currentInstr s = some i → storedOffset i ≠ some o) (h : step s = .next t) :
    memRead t o = memRead s o := by
  rcases step_spec h with ⟨_, rfl⟩ | ⟨_, _, rfl⟩ | ⟨_, _, _, rfl⟩ | ⟨hr, hf, i, hd, hexec⟩
  · rfl
  · exact memRead_boundary s o
  · exact memRead_congr (raiseFault_dmem _ s) o
  · exact exec_memRead hm (hi i (currentInstr_eq_some.2 ⟨hr, hf, hd⟩)) hexec

/-- What the first step of a run without a STORE to an offset executes does not store there. -/
theorem NoStoreTo.head {o : Word} {n : Nat} {s : State} (h : NoStoreTo o (n + 1) s) :
    ∀ i, currentInstr s = some i → storedOffset i ≠ some o :=
  h 0 n.succ_pos s (run_zero s)

/-- The rest of a run without a STORE to an offset has none either. -/
theorem NoStoreTo.tail {o : Word} {n : Nat} {s u : State} (h : NoStoreTo o (n + 1) s) (hu : step s = .next u) :
    NoStoreTo o n u :=
  fun k hk v hv => h (k + 1) (Nat.succ_lt_succ hk) v ((run_succ hu k).trans hv)

/-- A word keeps its value over every run in which no STORE reaches it. -/
theorem run_memRead {o : Word} {n : Nat} {s t : State} (hs : s.Inv) (h : run n s = .next t) (hno : NoStoreTo o n s) :
    memRead t o = memRead s o := by
  induction n generalizing s with
  | zero =>
    cases h
    rfl
  | succ n ih =>
    obtain ⟨u, hu, hrun⟩ := exists_step_of_run_succ h
    have ⟨_, _, hm, _⟩ := hs
    calc memRead t o
        = memRead u o := ih (everyStepKeepsTheInvariant s u hs hu) hrun (hno.tail hu)
      _ = memRead s o := step_memRead hm hno.head hu

/-! ### Words never stored -/

/-- Every word of the data memory is 0 after reset (R27). -/
theorem create_memRead (p : Params) (o : Word) : memRead (State.create p) o = 0 := rfl

/-- Settles O44: the word is 0 after reset and keeps its value over the run. -/
theorem neverStoredWordReadsZero : Obligations.NeverStoredWordReadsZero := by
  intro p n t o hp hrun hno
  rw [run_memRead (inv_create hp) hrun hno, create_memRead]

end Sys2Proof.Machine
end

section
/-! PROOF. The encoding: packing and field extraction, the decoder's answer on every record, and what it says of words and
their canonical form (spec/30_encoding.md rules R51 to R60). -/

namespace Sys2Proof

/-! ### Packing and field extraction (R51, R53) -/

/-- Each field is read back from where `pack` put it: above the fields appended after it. (Plain `simp` would fold the
sums of widths in the types, and the lemmas on `++` would no longer apply.) -/
@[simp] theorem unpack_pack (r : Record) : unpack (pack r) = r := by
  obtain ⟨opc, src, dst, off, imm⟩ := r
  simp only [unpack, pack, BitVec.extractLsb'_append_eq_of_le, BitVec.extractLsb'_append_eq_right,
    BitVec.extractLsb'_eq_self, Nat.reduceLeDiff, Nat.reduceSub]

/-- Neighbouring fields join to one longer field, and all five to the whole word. -/
@[simp] theorem pack_unpack (w : InstrWord) : pack (unpack w) = w := by
  simp only [unpack, pack, BitVec.extractLsb'_append_extractLsb'_eq_extractLsb']
  exact BitVec.extractLsb'_eq_self

/-- Settles O1: the two directions are `unpack_pack` and `pack_unpack`. -/
theorem packAndUnpackAreInverse : Obligations.PackAndUnpackAreInverse :=
  ⟨unpack_pack, pack_unpack⟩

/-- The decoder on a word made of fields. -/
@[simp] theorem decode_pack (r : Record) : decode (pack r) = decodeRecord r := by
  rw [decode, unpack_pack]

/-! ### The decoder on an instruction's own record -/

theorem withBoth_some {r : Record} {s d : Reg} (hs : Reg.ofField r.src = some s) (hd : Reg.ofField r.dst = some d)
    (k : Reg → Reg → Instr) : withBoth r k = .ok (k s d) := by
  rw [withBoth, withSource_some hs, withDestination_some hd]

/-- The decoder reads an instruction back from its record: each register from its number (R11). -/
@[simp] theorem decodeRecord_recordOf (i : Instr) : decodeRecord (recordOf i) = .ok i := by
  cases i with
  | nop => rfl
  | set _ d | load _ d | jmpi d => exact withDestination_some (ofField_field d) _
  | store s _ | print s => exact withSource_some (ofField_field s) _
  | add s d | sub s d | jgt s d _ | jeq s d _ => exact withBoth_some (ofField_field s) (ofField_field d) _

/-- Settles O2: field extraction undoes the packing, and the record decodes to its instruction. -/
theorem decodeOfEncodeIsIdentity : Obligations.DecodeOfEncodeIsIdentity := by
  intro i
  rw [encode, decode_pack, decodeRecord_recordOf]

/-! ### The checks of a record -/

/-- The operations that use SRC (R52). -/
theorem fieldUsed_srcUsedColumn (opc : BitVec 8) :
    fieldUsed srcUsedColumn opc = true ↔ opc.toNat ∈ [2, 3, 5, 6, 7, 9] := by
  revert opc
  decide

/-- The operations that use DST (R52). -/
theorem fieldUsed_dstUsedColumn (opc : BitVec 8) :
    fieldUsed dstUsedColumn opc = true ↔ opc.toNat ∈ [1, 2, 3, 4, 6, 7, 8] := by
  revert opc
  decide

namespace Record

theorem opcodeDefined_iff (r : Record) : r.opcodeDefined = true ↔ r.opc.toNat ≤ 9 := by
  simp [opcodeDefined]

theorem srcNamed_iff (r : Record) : r.srcNamed = true ↔ (r.opc.toNat ∈ [2, 3, 5, 6, 7, 9] → r.src.toNat ≤ 6) := by
  rw [← fieldUsed_srcUsedColumn, srcNamed]
  cases fieldUsed srcUsedColumn r.opc <;> simp

theorem dstNamed_iff (r : Record) : r.dstNamed = true ↔ (r.opc.toNat ∈ [1, 2, 3, 4, 6, 7, 8] → r.dst.toNat ≤ 6) := by
  rw [← fieldUsed_dstUsedColumn, dstNamed]
  cases fieldUsed dstUsedColumn r.opc <;> simp

theorem opcodeDefined_eq_false (r : Record) : r.opcodeDefined = false ↔ 9 < r.opc.toNat := by
  rw [← Bool.not_eq_true, opcodeDefined_iff, not_le]

theorem srcNamed_eq_false (r : Record) :
    r.srcNamed = false ↔ r.opc.toNat ∈ [2, 3, 5, 6, 7, 9] ∧ 6 < r.src.toNat := by
  rw [← Bool.not_eq_true, srcNamed_iff, Classical.not_imp, not_le]

theorem dstNamed_eq_false (r : Record) :
    r.dstNamed = false ↔ r.opc.toNat ∈ [1, 2, 3, 4, 6, 7, 8] ∧ 6 < r.dst.toNat := by
  rw [← Bool.not_eq_true, dstNamed_iff, Classical.not_imp, not_le]

theorem legal_iff (r : Record) :
    r.legal = true ↔ r.opcodeDefined = true ∧ r.srcNamed = true ∧ r.dstNamed = true := by
  simp [legal, and_assoc]

/-- The first of the three checks that fails, in the order of R136; `decodeRecord_eq_error_iff` ties it to the
decoder. -/
def firstFailure (r : Record) : Option Illegal :=
  if r.opcodeDefined = false then some .unrecognizedOpcode
  else if r.srcNamed = false then some .reservedSource
  else if r.dstNamed = false then some .reservedDestination
  else none

theorem firstFailure_eq_none (r : Record) : r.firstFailure = none ↔ r.legal = true := by
  rw [firstFailure, legal_iff]
  split_ifs with ho hs hd <;> simp [*]

/-! Clearing the unused fields changes none of the checks, and a second time it changes nothing. -/

theorem keepIfUsed_keepIfUsed {w : Nat} (used : Bool) (field : BitVec w) :
    keepIfUsed used (keepIfUsed used field) = keepIfUsed used field := by
  cases used <;> rfl

@[simp] theorem canonical_canonical (r : Record) : r.canonical.canonical = r.canonical := by
  simp only [canonical, keepIfUsed_keepIfUsed]

@[simp] theorem opcodeDefined_canonical (r : Record) : r.canonical.opcodeDefined = r.opcodeDefined := rfl

@[simp] theorem srcNamed_canonical (r : Record) : r.canonical.srcNamed = r.srcNamed := by
  cases h : fieldUsed srcUsedColumn r.opc <;> simp [srcNamed, canonical, keepIfUsed, h]

@[simp] theorem dstNamed_canonical (r : Record) : r.canonical.dstNamed = r.dstNamed := by
  cases h : fieldUsed dstUsedColumn r.opc <;> simp [dstNamed, canonical, keepIfUsed, h]

@[simp] theorem legal_canonical (r : Record) : r.canonical.legal = r.legal := by
  simp [legal]

@[simp] theorem firstFailure_canonical (r : Record) : r.canonical.firstFailure = r.firstFailure := by
  simp [firstFailure]

end Record

/-- Every instruction's record is legal and has zero in its unused fields (R58, R59). -/
theorem legalEncoding (i : Instr) : Laws.LegalEncoding.Statement i := by
  cases i with
  | nop => exact Laws.LegalEncoding.nop
  | set imm d => exact Laws.LegalEncoding.set imm d
  | add s d => exact Laws.LegalEncoding.add s d
  | sub s d => exact Laws.LegalEncoding.sub s d
  | load off d => exact Laws.LegalEncoding.load off d
  | store s off => exact Laws.LegalEncoding.store s off
  | jgt s d t => exact Laws.LegalEncoding.jgt s d t
  | jeq s d t => exact Laws.LegalEncoding.jeq s d t
  | jmpi d => exact Laws.LegalEncoding.jmpi d
  | print s => exact Laws.LegalEncoding.print s

/-- A record that is an instruction's, but for its unused fields, passes every check. -/
theorem firstFailure_eq_none_of_recordOf {r : Record} {i : Instr} (hi : recordOf i = r.canonical) :
    r.firstFailure = none := by
  obtain ⟨hlegal, -⟩ := legalEncoding i
  rwa [Record.firstFailure_eq_none, ← Record.legal_canonical, ← hi]

/-! ### The decoder's answer on every record -/

/-- `Verdict r a`: `a` is the answer R60 gives for the record `r`. -/
inductive Verdict (r : Record) : Except Illegal Instr → Prop where
  /-- A check fails; the first one that does names the reason (R56, R57, R136). -/
  | illegal (e : Illegal) (he : r.firstFailure = some e) : Verdict r (.error e)
  /-- The instruction whose record is `r` with its unused fields cleared (R58). -/
  | instr (i : Instr) (hi : recordOf i = r.canonical) : Verdict r (.ok i)

namespace Verdict

variable {r : Record}

/-- The check of a SRC that is used: the rest is judged for the register SRC names. -/
theorem withSource {k : Reg → Except Illegal Instr} (ho : r.opcodeDefined = true)
    (hu : fieldUsed srcUsedColumn r.opc = true) (hk : ∀ s : Reg, s.field = r.src → Verdict r (k s)) :
    Verdict r (withSource r k) := by
  rcases ofField_spec r.src with ⟨-, s, hs, hf⟩ | ⟨h7, hs⟩
  · rw [withSource_some hs]
    exact hk s hf
  · rw [withSource_none hs]
    have hfail : r.srcNamed = false := r.srcNamed_eq_false.2 ⟨(fieldUsed_srcUsedColumn _).1 hu, h7⟩
    exact .illegal _ (by simp [Record.firstFailure, ho, hfail])

/-- The check of a DST that is used, made after that of SRC. -/
theorem withDestination {k : Reg → Except Illegal Instr} (ho : r.opcodeDefined = true) (hs : r.srcNamed = true)
    (hu : fieldUsed dstUsedColumn r.opc = true) (hk : ∀ d : Reg, d.field = r.dst → Verdict r (k d)) :
    Verdict r (withDestination r k) := by
  rcases ofField_spec r.dst with ⟨-, d, hd, hf⟩ | ⟨h7, hd⟩
  · rw [withDestination_some hd]
    exact hk d hf
  · rw [withDestination_none hd]
    have hfail : r.dstNamed = false := r.dstNamed_eq_false.2 ⟨(fieldUsed_dstUsedColumn _).1 hu, h7⟩
    exact .illegal _ (by simp [Record.firstFailure, ho, hs, hfail])

/-- Both checks, SRC before DST. -/
theorem withBoth {k : Reg → Reg → Instr} (ho : r.opcodeDefined = true) (hs : fieldUsed srcUsedColumn r.opc = true)
    (hd : fieldUsed dstUsedColumn r.opc = true)
    (hk : ∀ s d : Reg, s.field = r.src → d.field = r.dst → recordOf (k s d) = r.canonical) :
    Verdict r (withBoth r k) := by
  refine withSource ho hs fun s hsrc => withDestination ho ?_ hd fun d hdst => .instr _ (hk s d hsrc hdst)
  exact r.srcNamed_iff.2 fun _ => hsrc ▸ Laws.regField_named s

end Verdict

/-- An OPC is one of the ten or is 10 to 255 (R55, R56). -/
theorem opcode_cases (opc : BitVec 8) :
    opc = 0 ∨ opc = 1 ∨ opc = 2 ∨ opc = 3 ∨ opc = 4 ∨ opc = 5 ∨ opc = 6 ∨ opc = 7 ∨ opc = 8 ∨ opc = 9 ∨
      9 < opc.toNat := by
  bv_omega

theorem decodeRecord_of_opcode {r : Record} (h : 9 < r.opc.toNat) : decodeRecord r = .error .unrecognizedOpcode := by
  unfold decodeRecord
  split
  all_goals try omega
  rfl

/-- The decoder answers every record as R60 says, operation by operation. -/
theorem decodeRecord_verdict (r : Record) : Verdict r (decodeRecord r) := by
  obtain ⟨opc, src, dst, off, imm⟩ := r
  rcases opcode_cases opc with rfl | rfl | rfl | rfl | rfl | rfl | rfl | rfl | rfl | rfl | h
  · exact .instr .nop rfl
  · exact .withDestination rfl rfl rfl fun d hd => .instr (.set imm d) (by subst hd; rfl)
  · exact .withBoth (k := .add) rfl rfl rfl fun s d hs hd => by subst hs hd; rfl
  · exact .withBoth (k := .sub) rfl rfl rfl fun s d hs hd => by subst hs hd; rfl
  · exact .withDestination rfl rfl rfl fun d hd => .instr (.load off d) (by subst hd; rfl)
  · exact .withSource rfl rfl fun s hs => .instr (.store s off) (by subst hs; rfl)
  · exact .withBoth (k := (.jgt · · imm)) rfl rfl rfl fun s d hs hd => by subst hs hd; rfl
  · exact .withBoth (k := (.jeq · · imm)) rfl rfl rfl fun s d hs hd => by subst hs hd; rfl
  · exact .withDestination rfl rfl rfl fun d hd => .instr (.jmpi d) (by subst hd; rfl)
  · exact .withSource rfl rfl fun s hs => .instr (.print s) (by subst hs; rfl)
  · rw [decodeRecord_of_opcode h]
    exact .illegal _ (if_pos (Record.opcodeDefined_eq_false _ |>.2 h))

/-- The decoder refuses a record exactly for the first check that fails (R60, R136). -/
theorem decodeRecord_eq_error_iff {r : Record} {e : Illegal} :
    decodeRecord r = .error e ↔ r.firstFailure = some e := by
  have hv := decodeRecord_verdict r
  generalize decodeRecord r = a at hv
  cases hv with
  | illegal e' he => simp [he]
  | instr i hi => simp [firstFailure_eq_none_of_recordOf hi]

/-- The decoder answers exactly the instruction whose record is the given one with its unused fields cleared (R58). -/
theorem decodeRecord_eq_ok_iff {r : Record} {i : Instr} : decodeRecord r = .ok i ↔ recordOf i = r.canonical := by
  have hv := decodeRecord_verdict r
  generalize decodeRecord r = a at hv
  cases hv with
  | illegal e he =>
    have hne : recordOf i ≠ r.canonical := fun hi => by simp [firstFailure_eq_none_of_recordOf hi] at he
    simp [hne]
  | instr j hj =>
    rw [Except.ok.injEq, ← hj]
    refine ⟨fun h => h ▸ rfl, fun h => ?_⟩
    have hdec : decodeRecord (recordOf i) = decodeRecord (recordOf j) := congrArg decodeRecord h
    simpa using hdec.symm

/-- The records that are illegal (R59). -/
theorem exists_decodeRecord_eq_error_iff {r : Record} : (∃ e, decodeRecord r = .error e) ↔ r.legal = false := by
  rw [← Bool.not_eq_true, ← Record.firstFailure_eq_none, ← ne_eq, Option.ne_none_iff_exists']
  simp only [decodeRecord_eq_error_iff]

/-- The records that are instructions (R59). -/
theorem exists_decodeRecord_eq_ok_iff {r : Record} : (∃ i, decodeRecord r = .ok i) ↔ r.legal = true := by
  rw [← Bool.not_eq_false, ← exists_decodeRecord_eq_error_iff]
  cases decodeRecord r <;> simp

/-- What the unused fields hold does not matter (R58). -/
theorem decodeRecord_canonical (r : Record) : decodeRecord r.canonical = decodeRecord r := by
  cases h : decodeRecord r with
  | error e =>
    rw [decodeRecord_eq_error_iff] at h ⊢
    rw [Record.firstFailure_canonical, h]
  | ok i =>
    rw [decodeRecord_eq_ok_iff] at h ⊢
    rw [Record.canonical_canonical, h]

/-! ### What the decoder says of words -/

/-- Settles O3, by `decodeRecord_eq_ok_iff`: the instruction's record is the word's, its unused fields cleared. -/
theorem encodeOfDecodeClearsUnusedFields : Obligations.EncodeOfDecodeClearsUnusedFields := by
  intro w i h
  rw [encode, decodeRecord_eq_ok_iff.1 h]

/-- Settles O4, by `decodeRecord_canonical` and the canonical form of every instruction's record. -/
theorem unusedFieldsAreIgnored : Obligations.UnusedFieldsAreIgnored := by
  refine ⟨fun w => ?_, fun i => ?_, by decide, by decide⟩
  · rw [decode_pack, decodeRecord_canonical, decode]
  · obtain ⟨-, hcanonical⟩ := legalEncoding i
    rw [encode, unpack_pack, hcanonical]

/-- Settles O5: each clause is the check that `Record.firstFailure` makes at that place, and a word that passes all three
is an instruction. -/
theorem decodeClassifiesEveryWord : Obligations.DecodeClassifiesEveryWord := by
  intro w
  simp only [← Record.opcodeDefined_eq_false, ← Record.srcNamed_eq_false, ← Record.dstNamed_eq_false]
  split_ifs with ho hs hd
  · exact decodeRecord_eq_error_iff.2 (by simp [Record.firstFailure, ho])
  · exact decodeRecord_eq_error_iff.2 (by simp [Record.firstFailure, ho, hs])
  · exact decodeRecord_eq_error_iff.2 (by simp [Record.firstFailure, ho, hs, hd])
  · have hlegal : (unpack w).legal = true := by simp [Record.legal_iff, ho, hs, hd]
    obtain ⟨i, hi⟩ := exists_decodeRecord_eq_ok_iff.2 hlegal
    exact ⟨i, hi, decodeRecord_eq_ok_iff.1 hi⟩

/-- Settles O6: the three checks of a legal record, each spelled out. -/
theorem everyWordIsLegalOrIllegal : Obligations.EveryWordIsLegalOrIllegal := by
  intro w
  refine ⟨?_, exists_decodeRecord_eq_error_iff⟩
  rw [← Record.opcodeDefined_iff, ← Record.srcNamed_iff, ← Record.dstNamed_iff, ← Record.legal_iff]
  exact exists_decodeRecord_eq_ok_iff

end Sys2Proof
end

section
/-! PROOF. The execution cycle: a step always answers a next state, a halted core stays as it is, how a step of a RUNNING
core ends, and what a step does on the ports (spec/40_execution_cycle.md rules R70 to R84). -/

namespace Sys2Proof.Machine

/-! ### The step, as one equation per case -/

/-- A core that is not RUNNING stays as it is (R70, R139; log 4). -/
theorem step_of_halted {s : State} (h : s.rs ≠ .running) : step s = .next s := by
  simp [step, isRunning, haltedStep, h]

/-- A RUNNING core whose PC is no index of the program fetches nothing (log 6). -/
theorem step_of_fetchOutOfRange {s : State} (hr : s.rs = .running) (hf : fetchInRange s = false) :
    step s = .next (boundary s) := by
  simp [step, isRunning, outOfRangeStep, hr, hf]

/-- A word that is no instruction faults in the decode phase (R74). -/
theorem step_of_decode_error {s : State} {e : Illegal} (hr : s.rs = .running) (hf : fetchInRange s = true)
    (hd : decode (fetch s) = .error e) : step s = .next (raiseFault .invalidOpcode s) := by
  simp [step, isRunning, illegalStep, hr, hf, hd]

/-- A core about to execute an instruction takes that instruction's step (R71). -/
theorem step_of_currentInstr {s : State} {i : Instr} (h : currentInstr s = some i) : step s = exec i s := by
  obtain ⟨hr, hf, hd⟩ := currentInstr_eq_some.1 h
  simp [step, isRunning, hr, hf, hd]

/-- Settles O8: at such a word the core is about to execute the instruction the word decodes to. -/
theorem stepRunsTheDecodedInstruction : Obligations.StepRunsTheDecodedInstruction := by
  rintro s w i ⟨hr, hlo, hhi, rfl⟩ hd
  have hf : fetchInRange s = true := (validTarget_iff s s.pc).2 ⟨hlo, hhi⟩
  exact step_of_currentInstr (currentInstr_eq_some.2 ⟨hr, hf, hd⟩)

/-! ### Every step answers a state -/

/-- Every instruction answers a next state: a fault is one too (R137). -/
theorem exists_exec_next (i : Instr) (s : State) : ∃ t, exec i s = .next t := by
  rcases exec_spec i s with ⟨_, _, h⟩ | ⟨_, _, h⟩
  · exact ⟨_, h⟩
  · exact ⟨_, h⟩

/-- Settles O9, by the tests a step makes in turn: RS, the PC's range, the decoder. -/
theorem everyStateHasANextState : Obligations.EveryStateHasANextState := by
  intro s
  by_cases hr : s.rs = .running
  · cases hf : fetchInRange s with
    | false => exact ⟨_, step_of_fetchOutOfRange hr hf⟩
    | true =>
      cases hd : decode (fetch s) with
      | error e => exact ⟨_, step_of_decode_error hr hf hd⟩
      | ok i =>
        rw [step_of_currentInstr (currentInstr_eq_some.2 ⟨hr, hf, hd⟩)]
        exact exists_exec_next i s
  · exact ⟨_, step_of_halted hr⟩

/-- Settles O10, by induction on the number of steps: the first leaves the core halted as it was. -/
theorem haltedCoreNeverChanges : Obligations.HaltedCoreNeverChanges := by
  intro s n hs
  induction n with
  | zero => exact run_zero s
  | succ n ih => rw [run_succ (step_of_halted hs), ih]

/-! ### How a step ends -/

/-- A step of a RUNNING core, wherever its PC stands, raises a fault of decode or execute and leaves the rest alone, or
ends with the boundary evaluation of a state whose status no earlier phase has written (R71, R72, R79). -/
theorem step_ends {s t : State} (hr : s.rs = .running) (h : step s = .next t) :
    (∃ c, c ≠ .fetchOutOfRange ∧ t = raiseFault c s) ∨
    (∃ u, u.rs = .running ∧ u.cause = s.cause ∧ u.params = s.params ∧ t = boundary u) := by
  cases hf : fetchInRange s with
  | false =>
    rw [step_of_fetchOutOfRange hr hf] at h
    cases h
    exact .inr ⟨s, hr, rfl, rfl, rfl⟩
  | true =>
    rcases step_running_spec hr hf h with hfault | ⟨u, hu, ht⟩
    · exact .inl hfault
    · exact .inr ⟨u, hu.rs_eq.trans hr, hu.cause_eq, hu.params_eq, ht⟩

/-- The one fault the boundary evaluation raises is its own (R72, R134). -/
theorem eq_fetchOutOfRange_of_boundary_cause {u : State} {c : FaultCause} (hu : u.cause = none)
    (h : (boundary u).cause = some c) : c = .fetchOutOfRange := by
  rcases boundary_spec u with ⟨_, e⟩ | ⟨_, e⟩ | ⟨_, _, e⟩ <;> rw [e] at h
  · simp [hu] at h
  · simpa using h.symm
  · simp [hu] at h

/-- Settles O15: the cause is not the boundary's, so the fault was raised before anything was written. -/
theorem faultingStepWritesOnlyTheStatus : Obligations.FaultingStepWritesOnlyTheStatus := by
  intro s t c hr hs h htc hc
  rcases step_ends hr h with ⟨c', _, rfl⟩ | ⟨u, _, hu, _, rfl⟩
  · obtain rfl : c' = c := by simpa using htc
    exact ⟨rfl, raiseFault_pc c' s⟩
  · exact absurd (eq_fetchOutOfRange_of_boundary_cause (hu.trans hs) htc) hc

/-- The boundary evaluation writes nothing but RS and CAUSE (R72). -/
theorem boundary_frame (s : State) : boundary s = { s with rs := (boundary s).rs, cause := (boundary s).cause } := by
  rcases boundary_spec s with ⟨_, e⟩ | ⟨_, e⟩ | ⟨_, _, e⟩ <;> rw [e]
  rfl

/-- Settles O16: the boundary evaluation comes last in a step that did not fault before it, and in reset. -/
theorem boundaryJudgesEveryStepAndReset : Obligations.BoundaryJudgesEveryStepAndReset := by
  refine ⟨fun s t hr _ h => ?step, fun p s => boundary_judged rfl rfl rfl, boundary_frame⟩
  rcases step_ends hr h with ⟨c, hc, rfl⟩ | ⟨u, hur, huc, hup, rfl⟩
  · exact .inr ⟨c, hc, rfl⟩
  · exact .inl (boundary_judged hur huc hup)

/-- Of the three verdicts, completion is the one at PROGSIZE (R72, R149). -/
theorem Judged.completed_iff {s t : State} (h : Judged s t) (hs : s.cause = none) :
    t.Completed ↔ t.pc.toInt = (s.progSize : Int) := by
  obtain ⟨hend, hout, hin⟩ := h
  refine ⟨fun ⟨hdone, _⟩ => ?_, fun hpc => ?_⟩
  · by_contra hne
    by_cases hrange : 0 ≤ t.pc.toInt ∧ t.pc.toInt < (s.progSize : Int)
    · simp [hin hrange] at hdone
    · simp [hout (by omega)] at hdone
  · obtain ⟨hdone, hcause⟩ := hend hpc
    exact ⟨hdone, hcause.trans hs⟩

/-- Settles O54: a fault of decode or execute leaves the PC below PROGSIZE; any other step ends with a verdict. -/
theorem completionIsThePcAtTheEnd : Obligations.CompletionIsThePcAtTheEnd := by
  intro s t hs hr h
  rcases step_ends hr h with ⟨c, _, rfl⟩ | ⟨u, hur, huc, hup, rfl⟩
  · have ⟨⟨hrun, _⟩, _⟩ := hs
    have ⟨_, hlt⟩ := hrun hr
    rw [raiseFault_pc]
    exact ⟨fun ⟨hdone, _⟩ => by simp at hdone, fun hpc => by omega⟩
  · exact (boundary_judged hur huc hup).completed_iff (hs.cause_eq_none hr)

/-! ### The ports -/

/-- The data-memory word at `a` once the access `data` has been made in `s`: only a write changes it (R37). -/
def wordAfter (s : State) (data : Option DataAccess) (a : Word) : Word :=
  match data with
  | some (.write off v) => if a = off then v else memRead s a
  | _ => memRead s a

/-- From `s` to `t`, the data memory and OUT have changed as the access `data` and the output event `printed` say, and
where a fault of decode or execute was raised there was neither (R84). -/
structure ActsOnPorts (s t : State) (data : Option DataAccess) (printed : Option Word) : Prop where
  out : t.out = s.out ++ printed.toList
  memory : ∀ a, memRead t a = wordAfter s data a
  silent : ∀ c, t.cause = some c → c ≠ .fetchOutOfRange → data = none ∧ printed = none

/-- A fault leaves both ports silent (R79). -/
theorem actsOnPorts_raiseFault (c : FaultCause) (s : State) : ActsOnPorts s (raiseFault c s) none none where
  out := by simp
  memory _ := rfl
  silent _ _ _ := ⟨rfl, rfl⟩

/-- A state with CAUSE 0 that shows what was done on the ports shows it after the boundary evaluation. -/
theorem actsOnPorts_boundary {s u : State} {data : Option DataAccess} {printed : Option Word} (hc : u.cause = none)
    (hout : u.out = s.out ++ printed.toList) (hmem : ∀ a, memRead u a = wordAfter s data a) :
    ActsOnPorts s (boundary u) data printed where
  out := by rw [boundary_out, hout]
  memory a := by rw [memRead_boundary, hmem]
  silent _ h hne := absurd (eq_fetchOutOfRange_of_boundary_cause hc h) hne

/-- Where neither the data memory nor OUT was written, no output event and no access but a read was made. -/
theorem actsOnPorts_boundary_of_unwritten {s u : State} {data : Option DataAccess} (hc : u.cause = none)
    (hout : u.out = s.out) (hmem : u.dmem = s.dmem) (hdata : ∀ a, wordAfter s data a = memRead s a) :
    ActsOnPorts s (boundary u) data none :=
  actsOnPorts_boundary hc (by simp [hout]) fun a => by rw [hdata, memRead_congr hmem]

/-- A jump leaves both ports silent, taken or not or faulting (R117). -/
theorem actsOnPorts_jumpTo {s t : State} {taken : Bool} {target : Word} (hc : s.cause = none)
    (h : retire s (jumpTo taken target s) = .next t) : ActsOnPorts s t none none := by
  rw [retire_jumpTo] at h
  split at h <;> cases h
  · split
    · exact actsOnPorts_boundary_of_unwritten hc rfl rfl fun _ => rfl
    · exact actsOnPorts_boundary_of_unwritten hc rfl rfl fun _ => rfl
  · exact actsOnPorts_raiseFault _ s

/-- An instruction acts on the ports as `dataAccess` and `printedWord` say of it. -/
theorem exec_actsOnPorts {s t : State} {i : Instr} (hm : s.MemoryInv) (hc : s.cause = none) (h : exec i s = .next t) :
    ActsOnPorts s t (dataAccess s i) (printedWord s i) := by
  cases i with
  | nop | set _ _ | add _ _ | sub _ _ =>
    cases h
    exact actsOnPorts_boundary_of_unwritten hc rfl rfl fun _ => rfl
  | load off dst =>
    rw [exec_load] at h
    rw [dataAccess]
    split at h <;> cases h
    · next hin =>
      rw [if_pos hin]
      exact actsOnPorts_boundary_of_unwritten hc rfl rfl fun _ => rfl
    · next hin =>
      rw [if_neg hin]
      exact actsOnPorts_raiseFault _ s
  | store src off =>
    rw [exec_store] at h
    rw [dataAccess]
    split at h <;> cases h
    · next hin =>
      rw [if_pos hin]
      exact actsOnPorts_boundary hc (by simp [printedWord]) (memRead_memWrite hm off (readReg s src))
    · next hin =>
      rw [if_neg hin]
      exact actsOnPorts_raiseFault _ s
  | jgt _ _ _ | jeq _ _ _ | jmpi _ => exact actsOnPorts_jumpTo hc h
  | print src =>
    cases (exec_print src s).symm.trans h
    exact actsOnPorts_boundary hc rfl fun _ => rfl

/-- A RUNNING core whose PC is an index of the program fetches the word there (R84). -/
theorem portActivity_fetched {s : State} (hr : s.rs = .running) (hf : fetchInRange s = true) :
    (portActivity s).fetched = some s.pc.toInt.toNat := by
  simp [portActivity, isRunning, hr, hf]

/-- A word that is no instruction is none to execute. -/
theorem currentInstr_of_decode_error {s : State} {e : Illegal} (hd : decode (fetch s) = .error e) :
    currentInstr s = none := by
  simp [currentInstr, hd, Except.toOption]

/-- A step of a RUNNING core with CAUSE 0, its PC an index of the program, acts on the ports as its port activity says. -/
theorem step_actsOnPorts {s t : State} (hr : s.rs = .running) (hf : fetchInRange s = true) (hc : s.cause = none)
    (hm : s.MemoryInv) (h : step s = .next t) : ActsOnPorts s t (portActivity s).data (portActivity s).printed := by
  rw [portActivity]
  cases hd : decode (fetch s) with
  | error e =>
    rw [step_of_decode_error hr hf hd] at h
    cases h
    rw [currentInstr_of_decode_error hd]
    exact actsOnPorts_raiseFault _ s
  | ok i =>
    have hi : currentInstr s = some i := currentInstr_eq_some.2 ⟨hr, hf, hd⟩
    rw [step_of_currentInstr hi] at h
    rw [hi]
    exact exec_actsOnPorts hm hc h

/-- Settles O45: a good RUNNING core fetches inside its program, and the rest is `step_actsOnPorts`. -/
theorem stepActsOnThePortsAsStated : Obligations.StepActsOnThePortsAsStated := by
  intro s t hs hr h
  have hf := hs.fetchInRange hr
  have ⟨_, _, hm, _⟩ := hs
  obtain ⟨hout, hmem, hsilent⟩ := step_actsOnPorts hr hf (hs.cause_eq_none hr) hm h
  exact ⟨portActivity_fetched hr hf, hout, hmem, hsilent⟩

end Sys2Proof.Machine
end

section
/-! PROOF. NOP and PRINT: the step of each, from the instruction and from the word, and the printed line
(spec/41_nop_print.md rules R90 to R93). -/

namespace Sys2Proof.Machine

/-! ### The step of each instruction -/

/-- Settles O18: NOP is the increment and the boundary evaluation alone. -/
theorem nopOnlyAdvances : Obligations.NopOnlyAdvances :=
  fun s hr => ⟨_, exec_nop s, plainStep_advance rfl hr rfl rfl⟩

/-- Settles O19: between fetch and increment PRINT writes nothing but OUT. -/
theorem printAppendsTheSource : Obligations.PrintAppendsTheSource := by
  intro s src hr
  exact ⟨_, exec_print src s, plainStep_advance (output_x _ s) hr rfl rfl⟩

/-! ### From the word -/

/-- A core at a word has its PC in the program (R41). -/
theorem State.AtWord.fetchInRange {s : State} {w : InstrWord} (h : s.AtWord w) : fetchInRange s = true := by
  obtain ⟨_, hlo, hhi, _⟩ := h
  exact (validTarget_iff s s.pc).2 ⟨hlo, hhi⟩

/-- At a word that is no instruction the step raises InvalidOpcode and writes nothing else (R74, R133). -/
theorem State.AtWord.faults_of_decode_error {s : State} {w : InstrWord} {e : Illegal} (h : s.AtWord w)
    (hd : decode w = .error e) : ∃ t, step s = .next t ∧ s.FaultedWith .invalidOpcode t := by
  have hf := h.fetchInRange
  obtain ⟨hr, _, _, rfl⟩ := h
  exact ⟨_, step_of_decode_error hr hf hd, rfl⟩

/-- OPC 0 is NOP, whatever the other fields hold (R55, R58). -/
theorem decodeRecord_of_opc_nop {r : Record} (h : r.opc = 0) : decodeRecord r = .ok .nop := by
  simp [decodeRecord, h]

/-- OPC 9 is PRINT, which uses SRC alone (R52, R55). -/
theorem decodeRecord_of_opc_print {r : Record} (h : r.opc = 9) :
    decodeRecord r = withSource r fun src => .ok (.print src) := by
  simp [decodeRecord, h]

/-- Settles O30: the word decodes to NOP, and NOP's step is `nopOnlyAdvances`. -/
theorem nopWordRule : Obligations.NopWordRule := by
  intro s w hw hopc
  rw [stepRunsTheDecodedInstruction s w .nop hw (decodeRecord_of_opc_nop hopc)]
  obtain ⟨hr, _⟩ := hw
  exact nopOnlyAdvances s hr

/-- Settles O31: the decoder's check of SRC passes, and PRINT's step is `printAppendsTheSource`, or fails, and the word
is no instruction. -/
theorem printWordRule : Obligations.PrintWordRule := by
  intro s w hw hopc
  have hdecode : decode w = withSource (unpack w) fun src => .ok (.print src) := decodeRecord_of_opc_print hopc
  refine ⟨fun src hsrc => ?named, fun hsrc => ?reserved⟩
  case named =>
    rw [withSource_some (ofField_of_eq hsrc)] at hdecode
    rw [stepRunsTheDecodedInstruction s w (.print src) hw hdecode]
    obtain ⟨hr, _⟩ := hw
    exact printAppendsTheSource s src hr
  case reserved =>
    rw [withSource_none (ofField_reserved hsrc)] at hdecode
    exact hw.faults_of_decode_error hdecode

/-! ### The printed line -/

/-- The ten digits stand in order from `'0'`, which is 48. -/
theorem toNat_digitChar {d : Nat} (hd : d < 10) : (digitChar d).toNat = 48 + d := by
  interval_cases d <;> rfl

theorem digitChar_bounds {d : Nat} (hd : d < 10) :
    '0'.toNat ≤ (digitChar d).toNat ∧ (digitChar d).toNat ≤ '9'.toNat := by
  have hzero : '0'.toNat = 48 := rfl
  have hnine : '9'.toNat = 57 := rfl
  have := toNat_digitChar hd
  omega

/-- One more digit at the right: ten times the value, and the digit. -/
theorem digitsValue_snoc (l : List Char) (c : Char) : digitsValue (l ++ [c]) = 10 * digitsValue l + (c.toNat - 48) := by
  simp [digitsValue]

/-- `l` is the shortest decimal numeral of `n` (R93): digits, at least one, that spell `n`, with no leading zero but in
the numeral of zero. -/
structure ShortestNumeral (n : Nat) (l : List Char) : Prop where
  nonempty : l ≠ []
  digits : ∀ c ∈ l, '0'.toNat ≤ c.toNat ∧ c.toNat ≤ '9'.toNat
  value : digitsValue l = n
  leading : l.head? = some '0' → l = ['0']

namespace ShortestNumeral

/-- A number below ten is its one digit. -/
theorem digit {d : Nat} (hd : d < 10) : ShortestNumeral d [digitChar d] where
  nonempty := by simp
  digits := by simpa using digitChar_bounds hd
  value := by simp [toNat_digitChar hd, digitsValue]
  leading := by simp

/-- The numeral of a tenth and the last digit make the numeral: the tenth is not zero, so it has no leading zero. -/
theorem snoc {n : Nat} {l : List Char} (hn : 10 ≤ n) (h : ShortestNumeral (n / 10) l) :
    ShortestNumeral n (l ++ [digitChar (n % 10)]) where
  nonempty := by simp
  digits c hc := by
    rcases List.mem_append.1 hc with hc | hc
    · exact h.digits c hc
    · rw [List.mem_singleton.1 hc]
      exact digitChar_bounds (by omega)
  value := by
    rw [digitsValue_snoc, h.value, toNat_digitChar (by omega)]
    omega
  leading hhead := by
    rw [List.head?_append_of_ne_nil _ h.nonempty] at hhead
    have hzero : digitsValue l = 0 := by rw [h.leading hhead]; rfl
    have := h.value
    omega

end ShortestNumeral

/-- With enough fuel, `decimalDigits` writes the shortest numeral. -/
theorem shortestNumeral_decimalDigits (fuel n : Nat) (hn : n < 10 ^ (fuel + 1)) :
    ShortestNumeral n (decimalDigits fuel n) := by
  induction fuel generalizing n with
  | zero =>
    have hlt : n < 10 := by simpa using hn
    rw [decimalDigits, Nat.mod_eq_of_lt hlt]
    exact .digit hlt
  | succ fuel ih =>
    rw [decimalDigits]
    split
    · next hlt => exact .digit hlt
    · next hge => exact .snoc (by omega) (ih (n / 10) (by omega))

/-- Ten digits hold the magnitude of every word. -/
theorem natAbs_toInt_lt (v : Word) : v.toInt.natAbs < 10 ^ 10 := by
  have := v.toInt_lt
  have := v.le_toInt
  omega

/-- A line is the sign, the digits of the magnitude and a line feed (R93). -/
theorem lineText_eq (v : Word) :
    lineText v = (if v.toInt < 0 then ['-'] else []) ++ decimalDigits 9 v.toInt.natAbs ++ ['\n'] := by
  unfold lineText numeral
  split <;> rfl

/-- Settles O56: the digits are those of `decimalDigits`, whose ten are enough. -/
theorem printedLineIsTheShortestDecimal : Obligations.PrintedLineIsTheShortestDecimal := by
  intro v
  obtain ⟨hnonempty, hdigits, hvalue, hleading⟩ := shortestNumeral_decimalDigits 9 _ (natAbs_toInt_lt v)
  exact ⟨_, lineText_eq v, hnonempty, hdigits, hvalue, hleading⟩

end Sys2Proof.Machine
end

section
/-! PROOF. SET, ADD and SUB: the arithmetic modulo 2^32, the step of each from the instruction and from the word, and the
SUB-twice law (spec/42_alu.md rules R95 to R100). -/

namespace Sys2Proof.Machine

/-! ### Arithmetic modulo 2^32 -/

/-- `wrap32` reduces an exact integer into the signed range (R98). -/
theorem toInt_wrap32 (z : Int) : (wrap32 z).toInt = z.bmod (2 ^ 32) := BitVec.toInt_ofInt z

/-- The unsigned reading of a difference is the exact difference reduced modulo 2^32 (R98). -/
theorem toNat_aluSub (dest src : Word) :
    ((aluSub dest src).toNat : Int) = ((src.toNat : Int) - (dest.toNat : Int)) % 2 ^ 32 := by
  have hdest := dest.isLt
  rw [aluSub_eq, BitVec.toNat_sub]
  omega

/-- Settles O40: the signed reading is the definition of each operation; the unsigned one is that of the 32-bit sum or
difference the operation is. -/
theorem arithmeticWraps : Obligations.ArithmeticWraps := by
  refine fun a b => ⟨toInt_wrap32 _, toInt_wrap32 _, toInt_wrap32 _, ?adder, toNat_aluSub a b, ?sequencer⟩
  case adder => rw [aluAdd_eq, BitVec.toNat_add]
  case sequencer => rw [increment_eq, BitVec.toNat_add]; rfl

/-! ### The step of each instruction -/

/-- Settles O20: between fetch and increment SET makes one register write. -/
theorem setWritesTheImmediate : Obligations.SetWritesTheImmediate :=
  fun s imm dst hr => ⟨_, exec_set imm dst s, registerStep_writeReg hr dst imm⟩

/-- Settles O21: between fetch and increment ADD makes one register write, of the sum. -/
theorem addWritesTheWrappedSum : Obligations.AddWritesTheWrappedSum :=
  fun s src dst hr => ⟨_, exec_add src dst s, registerStep_writeReg hr dst _⟩

/-- Settles O22: between fetch and increment SUB makes one register write, of the difference. -/
theorem subWritesSourceMinusDestination : Obligations.SubWritesSourceMinusDestination :=
  fun s src dst hr => ⟨_, exec_sub src dst s, registerStep_writeReg hr dst _⟩

/-! ### SUB twice -/

/-- What a general register holds after a SUB, in any run state. -/
theorem readReg_of_exec_sub {s t : State} {src dst r : Reg} (h : exec (.sub src dst) s = .next t) (hr : r ≠ .pc) :
    readReg t r = if r = dst then readReg s src - readReg s dst else readReg s r := by
  rw [exec_sub] at h
  cases h
  rw [readReg_boundary, readReg_advance _ hr, readReg_writeReg]

/-- Settles O41: the first SUB leaves the source alone, so the second subtracts `src - dst` from the same `src`. -/
theorem subTwiceRestoresTheDestination : Obligations.SubTwiceRestoresTheDestination := by
  intro s t u src dst hsrc hdst hne hst htu r hr
  have hsrc_kept : readReg t src = readReg s src := by rw [readReg_of_exec_sub hst hsrc, if_neg hne]
  have hdst_first : readReg t dst = readReg s src - readReg s dst := by rw [readReg_of_exec_sub hst hdst, if_pos rfl]
  rw [readReg_of_exec_sub htu hr]
  split
  · next heq => rw [heq, hsrc_kept, hdst_first, sub_sub_cancel]
  · next hother => rw [readReg_of_exec_sub hst hr, if_neg hother]

/-! ### From the word

What a core at a word does where the word's operation uses DST alone, or SRC and DST (R52): it executes the instruction
on the registers the fields name, or, where a field names none, raises InvalidOpcode (R57). -/

/-- A word that names the DST its operation uses is executed on that register. -/
theorem State.AtWord.step_withDestination {s : State} {w : InstrWord} {k : Reg → Instr} {dst : Reg} (h : s.AtWord w)
    (hk : decode w = withDestination (unpack w) fun d => .ok (k d)) (hdst : (unpack w).dst = dst.field) :
    step s = exec (k dst) s := by
  rw [withDestination_some (ofField_of_eq hdst)] at hk
  exact stepRunsTheDecodedInstruction s w (k dst) h hk

/-- A reserved DST faults in the decode phase, where the operation uses it. -/
theorem State.AtWord.faults_withDestination {s : State} {w : InstrWord} {k : Reg → Except Illegal Instr}
    (h : s.AtWord w) (hk : decode w = withDestination (unpack w) k) (hdst : 7 ≤ (unpack w).dst.toNat) :
    ∃ t, step s = .next t ∧ s.FaultedWith .invalidOpcode t := by
  rw [withDestination_none (ofField_reserved hdst)] at hk
  exact h.faults_of_decode_error hk

/-- A word that names the SRC and DST its operation uses is executed on those registers. -/
theorem State.AtWord.step_withBoth {s : State} {w : InstrWord} {k : Reg → Reg → Instr} {src dst : Reg} (h : s.AtWord w)
    (hk : decode w = withBoth (unpack w) k) (hsrc : (unpack w).src = src.field) (hdst : (unpack w).dst = dst.field) :
    step s = exec (k src dst) s := by
  rw [withBoth_some (ofField_of_eq hsrc) (ofField_of_eq hdst)] at hk
  exact stepRunsTheDecodedInstruction s w (k src dst) h hk

/-- With SRC or DST reserved, an operation that uses both decodes to a refusal, whichever of the two it is (R57). -/
theorem withBoth_reserved {r : Record} (h : 7 ≤ r.src.toNat ∨ 7 ≤ r.dst.toNat) (k : Reg → Reg → Instr) :
    ∃ e, withBoth r k = .error e := by
  rcases ofField_spec r.src with ⟨hsrc, src, hname, _⟩ | ⟨_, hnone⟩
  · have hdst : 7 ≤ r.dst.toNat := by omega
    exact ⟨_, by rw [withBoth, withSource_some hname, withDestination_none (ofField_reserved hdst)]⟩
  · exact ⟨_, by rw [withBoth, withSource_none hnone]⟩

/-- A reserved SRC or DST faults in the decode phase, where the operation uses both. -/
theorem State.AtWord.faults_withBoth {s : State} {w : InstrWord} {k : Reg → Reg → Instr} (h : s.AtWord w)
    (hk : decode w = withBoth (unpack w) k) (hfield : 7 ≤ (unpack w).src.toNat ∨ 7 ≤ (unpack w).dst.toNat) :
    ∃ t, step s = .next t ∧ s.FaultedWith .invalidOpcode t := by
  obtain ⟨e, he⟩ := withBoth_reserved hfield k
  exact h.faults_of_decode_error (hk.trans he)

/-- OPC 1 is SET, which uses DST and IMM (R52, R55). -/
theorem decodeRecord_of_opc_set {r : Record} (h : r.opc = 1) :
    decodeRecord r = withDestination r fun dst => .ok (.set r.imm dst) := by
  simp [decodeRecord, h]

/-- OPC 2 is ADD, which uses SRC and DST (R52, R55). -/
theorem decodeRecord_of_opc_add {r : Record} (h : r.opc = 2) : decodeRecord r = withBoth r .add := by
  simp [decodeRecord, h]

/-- OPC 3 is SUB, which uses SRC and DST (R52, R55). -/
theorem decodeRecord_of_opc_sub {r : Record} (h : r.opc = 3) : decodeRecord r = withBoth r .sub := by
  simp [decodeRecord, h]

/-- Settles O32: the word decodes to SET, whose step is `setWritesTheImmediate`, unless DST is reserved. -/
theorem setWordRule : Obligations.SetWordRule := by
  intro s w hw hopc
  have hdecode : decode w = withDestination (unpack w) fun dst => .ok (.set (unpack w).imm dst) :=
    decodeRecord_of_opc_set hopc
  refine ⟨fun dst hdst => ?_, hw.faults_withDestination hdecode⟩
  rw [hw.step_withDestination hdecode hdst]
  obtain ⟨hr, _⟩ := hw
  exact setWritesTheImmediate s _ dst hr

/-- Settles O33: the word decodes to ADD, whose step is `addWritesTheWrappedSum`, unless SRC or DST is reserved. -/
theorem addWordRule : Obligations.AddWordRule := by
  intro s w hw hopc
  have hdecode : decode w = withBoth (unpack w) .add := decodeRecord_of_opc_add hopc
  refine ⟨fun src dst hsrc hdst => ?_, hw.faults_withBoth hdecode⟩
  rw [hw.step_withBoth hdecode hsrc hdst]
  obtain ⟨hr, _⟩ := hw
  exact addWritesTheWrappedSum s src dst hr

/-- Settles O34: the word decodes to SUB, whose step is `subWritesSourceMinusDestination`, unless SRC or DST is
reserved. -/
theorem subWordRule : Obligations.SubWordRule := by
  intro s w hw hopc
  have hdecode : decode w = withBoth (unpack w) .sub := decodeRecord_of_opc_sub hopc
  refine ⟨fun src dst hsrc hdst => ?_, hw.faults_withBoth hdecode⟩
  rw [hw.step_withBoth hdecode hsrc hdst]
  obtain ⟨hr, _⟩ := hw
  exact subWritesSourceMinusDestination s src dst hr

end Sys2Proof.Machine
end

section
/-! PROOF. LOAD and STORE: the step of each, from the instruction and from the word, and the round trip of a stored
value (spec/43_load_store.md rules R105 to R108). -/

namespace Sys2Proof.Machine

/-! ### The step of each instruction -/

/-- Settles O23: within MEMSIZE, LOAD makes one register write between fetch and increment. -/
theorem loadWritesTheMemoryWord : Obligations.LoadWritesTheMemoryWord := by
  intro s off dst hr hoff
  rw [exec_load, if_pos ((inRange_iff s off).2 hoff)]
  exact ⟨_, rfl, registerStep_writeReg hr dst _⟩

/-- Settles O24: within MEMSIZE, STORE makes one memory write between fetch and increment, read back by
`memRead_memWrite`. -/
theorem storeWritesOneMemoryWord : Obligations.StoreWritesOneMemoryWord := by
  intro s src off hr hm hoff
  have hmem : memRead (memWrite off (readReg s src) s) = fun a => if a = off then readReg s src else memRead s a :=
    funext (memRead_memWrite hm off _)
  rw [exec_store, if_pos ((inRange_iff s off).2 hoff), ← hmem]
  exact ⟨_, rfl, plainStep_advance (memWrite_x off _ s) hr rfl rfl⟩

/-- Settles O28: the bounds check fails before either instruction has written anything. -/
theorem loadAndStoreFaultOutOfRange : Obligations.LoadAndStoreFaultOutOfRange := by
  intro s r off hoff
  have hout : ¬ inRange s off = true := by rw [inRange_iff]; omega
  rw [exec_load, exec_store, if_neg hout, if_neg hout]
  exact ⟨⟨_, rfl, rfl⟩, ⟨_, rfl, rfl⟩⟩

/-! ### From the word -/

/-- A word that names the SRC its operation uses, and not DST, is executed on that register. -/
theorem State.AtWord.step_withSource {s : State} {w : InstrWord} {k : Reg → Instr} {src : Reg} (h : s.AtWord w)
    (hk : decode w = withSource (unpack w) fun r => .ok (k r)) (hsrc : (unpack w).src = src.field) :
    step s = exec (k src) s := by
  rw [withSource_some (ofField_of_eq hsrc)] at hk
  exact stepRunsTheDecodedInstruction s w (k src) h hk

/-- A reserved SRC faults in the decode phase, where the operation uses it. -/
theorem State.AtWord.faults_withSource {s : State} {w : InstrWord} {k : Reg → Except Illegal Instr} (h : s.AtWord w)
    (hk : decode w = withSource (unpack w) k) (hsrc : 7 ≤ (unpack w).src.toNat) :
    ∃ t, step s = .next t ∧ s.FaultedWith .invalidOpcode t := by
  rw [withSource_none (ofField_reserved hsrc)] at hk
  exact h.faults_of_decode_error hk

/-- OPC 4 is LOAD, which uses DST and OFF (R52, R55). -/
theorem decodeRecord_of_opc_load {r : Record} (h : r.opc = 4) :
    decodeRecord r = withDestination r fun dst => .ok (.load r.off dst) := by
  simp [decodeRecord, h]

/-- OPC 5 is STORE, which uses SRC and OFF (R52, R55). -/
theorem decodeRecord_of_opc_store {r : Record} (h : r.opc = 5) :
    decodeRecord r = withSource r fun src => .ok (.store src r.off) := by
  simp [decodeRecord, h]

/-- Settles O35: the word decodes to LOAD, which completes or faults by its offset, unless DST is reserved. -/
theorem loadWordRule : Obligations.LoadWordRule := by
  intro s w hw hopc
  have hdecode : decode w = withDestination (unpack w) fun dst => .ok (.load (unpack w).off dst) :=
    decodeRecord_of_opc_load hopc
  refine ⟨fun dst hdst => ?_, hw.faults_withDestination hdecode⟩
  rw [hw.step_withDestination hdecode hdst]
  obtain ⟨hr, _⟩ := hw
  exact ⟨loadWritesTheMemoryWord s _ dst hr, fun hoff => (loadAndStoreFaultOutOfRange s dst _ hoff).left⟩

/-- Settles O36: the word decodes to STORE, which completes or faults by its offset, unless SRC is reserved. -/
theorem storeWordRule : Obligations.StoreWordRule := by
  intro s w hw hm hopc
  have hdecode : decode w = withSource (unpack w) fun src => .ok (.store src (unpack w).off) :=
    decodeRecord_of_opc_store hopc
  refine ⟨fun src hsrc => ?_, hw.faults_withSource hdecode⟩
  rw [hw.step_withSource hdecode hsrc]
  obtain ⟨hr, _⟩ := hw
  exact ⟨storeWritesOneMemoryWord s src _ hr hm, fun hoff => (loadAndStoreFaultOutOfRange s src _ hoff).right⟩

/-! ### The round trip -/

/-- No step writes the parameters (R162). -/
theorem step_params {s t : State} (h : step s = .next t) : t.params = s.params := by
  by_cases hr : s.rs = .running
  · rcases step_ends hr h with ⟨c, _, rfl⟩ | ⟨u, _, _, hu, rfl⟩
    · exact raiseFault_params c s
    · rw [boundary_params, hu]
  · cases (step_of_halted hr).symm.trans h
    rfl

/-- No run writes the parameters (R162). -/
theorem run_params {n : Nat} {s t : State} (h : run n s = .next t) : t.params = s.params :=
  run_invariant (P := fun u => u.params = s.params) (fun _ _ hu hstep => (step_params hstep).trans hu) n rfl h

/-- A STORE that raised no fault had its offset in range, and the word there is the source's (R107). -/
theorem exec_store_of_not_faulted {s t : State} {src : Reg} {off : Word} (hr : s.rs = .running) (hm : s.MemoryInv)
    (h : exec (.store src off) s = .next t) (ht : t.rs ≠ .faulted) :
    off.toNat < s.memSize ∧ memRead t off = readReg s src := by
  rcases Nat.lt_or_ge off.toNat s.memSize with hoff | hoff
  · obtain ⟨t', ht', hplain⟩ := storeWritesOneMemoryWord s src off hr hm hoff
    cases ht'.symm.trans h
    exact ⟨hoff, (hplain.memory off).trans (if_pos rfl)⟩
  · obtain ⟨-, t', ht', rfl⟩ := loadAndStoreFaultOutOfRange s src off hoff
    cases ht'.symm.trans h
    exact absurd rfl ht

/-- Settles O43: the word keeps the stored value up to the LOAD (`run_memRead`), whose offset is still in range, MEMSIZE
being a parameter. -/
theorem storeThenLoadReturnsTheValue : Obligations.StoreThenLoadReturnsTheValue := by
  intro s t u v src dst o n hs hstore hst hnofault hrun hno hload huv
  have ⟨_, _, hm, _⟩ := hs
  have ⟨hsr, _⟩ := currentInstr_eq_some.1 hstore
  have hexec : exec (.store src o) s = .next t := (step_of_currentInstr hstore).symm.trans hst
  obtain ⟨hoff, hstored⟩ := exec_store_of_not_faulted hsr hm hexec hnofault
  have ht : t.Inv := everyStepKeepsTheInvariant s t hs hst
  have hparams : u.params = s.params := (run_params hrun).trans (step_params hst)
  have hkept : memRead u o = readReg s src := (run_memRead ht hrun hno).trans hstored
  have ⟨hur, _⟩ := currentInstr_eq_some.1 hload
  obtain ⟨v', hv', hregister⟩ := loadWritesTheMemoryWord u o dst hur (by rwa [State.memSize, hparams])
  rw [step_of_currentInstr hload] at huv
  cases hv'.symm.trans huv
  rw [hkept] at hregister
  exact ⟨fun hd => (hregister.written hd).left, hregister.pcWritten⟩

end Sys2Proof.Machine
end

section
/-! PROOF. JGT, JEQ and JMPI: the range tests in both readings, the step of each jump from the instruction and from the
word, the order of execution, and the endless loop (spec/44_jumps.md rules R113 to R118; spec/20_memory.md rule R40;
spec/40_execution_cycle.md rules R76 to R78, R83). -/

namespace Sys2Proof.Machine

/-! ### The range tests in both readings -/

/-- Below a bound of at most 2^31 - 1 the two readings of a word agree: a word that is negative as a signed number is
2^31 or more as an unsigned one. -/
theorem toInt_inRange_iff_toNat_lt {a : Word} {n : Nat} (hn : n < 2 ^ 31) :
    0 ≤ a.toInt ∧ a.toInt < (n : Int) ↔ a.toNat < n := by
  have ha := a.isLt
  rw [BitVec.toInt_eq_toNat_cond]
  split <;> omega

/-- Settles O42: both sizes are below 2^31 (R5). -/
theorem rangeTestsAgreeInBothReadings : Obligations.RangeTestsAgreeInBothReadings := by
  intro s a
  have hprog : s.progSize < 2 ^ 31 := s.params.progSize.isLt
  have hmem : s.memSize < 2 ^ 31 := s.params.memSize.isLt
  rw [validTarget_iff, inRange_iff]
  exact ⟨toInt_inRange_iff_toNat_lt hprog, (toInt_inRange_iff_toNat_lt hmem).symm⟩

/-! ### The step of each jump -/

/-- Once its target has passed the check, a jump completes: with the target in the PC where it is taken, with the
increment where it is not (R77, R78). -/
theorem plainStep_conditionalJump {s : State} (hr : s.rs = .running) (c : Prop) [Decidable c] (target : Word) :
    PlainStep s (boundary (if c then writeReg .pc target s else advance s)) (if c then target else s.pc + 1) s.out
      (memRead s) := by
  split
  · exact plainStep_jump hr target
  · exact plainStep_advance rfl hr rfl rfl

/-- Settles O25: the target passes the check, and the branch is `plainStep_conditionalJump`. -/
theorem jgtJumpsOnSignedGreater : Obligations.JgtJumpsOnSignedGreater := by
  intro s src dst target hr hlo hhi
  rw [exec_jgt, if_pos ((validTarget_iff s target).2 ⟨hlo, hhi⟩)]
  exact ⟨_, rfl, plainStep_conditionalJump hr _ target⟩

/-- Settles O26: the target passes the check, and the branch is `plainStep_conditionalJump`. -/
theorem jeqJumpsOnEqualWords : Obligations.JeqJumpsOnEqualWords := by
  intro s src dst target hr hlo hhi
  rw [exec_jeq, if_pos ((validTarget_iff s target).2 ⟨hlo, hhi⟩)]
  exact ⟨_, rfl, plainStep_conditionalJump hr _ target⟩

/-- Settles O27: the register's value passes the check, and the jump is always taken. -/
theorem jmpiJumpsToTheRegister : Obligations.JmpiJumpsToTheRegister := by
  intro s dst hr hlo hhi
  rw [exec_jmpi, if_pos ((validTarget_iff s _).2 ⟨hlo, hhi⟩)]
  exact ⟨_, rfl, plainStep_jump hr _⟩

/-- The targets that fail the check (R113). -/
theorem not_validTarget_iff (s : State) (t : Word) :
    ¬ validTarget s t = true ↔ t.toInt < 0 ∨ (s.progSize : Int) ≤ t.toInt := by
  rw [validTarget_iff]
  omega

/-- Settles O29: the check comes before the condition is looked at and before anything is written. -/
theorem jumpsFaultOnInvalidTargets : Obligations.JumpsFaultOnInvalidTargets := by
  intro s src dst target
  rw [← not_validTarget_iff, ← not_validTarget_iff]
  refine ⟨fun hbad => ?conditional, fun hbad => ?register⟩
  case conditional =>
    rw [exec_jgt, exec_jeq, if_neg hbad, if_neg hbad]
    exact ⟨⟨_, rfl, rfl⟩, ⟨_, rfl, rfl⟩⟩
  case register =>
    rw [exec_jmpi, if_neg hbad]
    exact ⟨_, rfl, rfl⟩

/-! ### From the word -/

/-- OPC 6 is JGT, which uses SRC, DST and IMM (R52, R55). -/
theorem decodeRecord_of_opc_jgt {r : Record} (h : r.opc = 6) : decodeRecord r = withBoth r (.jgt · · r.imm) := by
  simp [decodeRecord, h]

/-- OPC 7 is JEQ, which uses SRC, DST and IMM (R52, R55). -/
theorem decodeRecord_of_opc_jeq {r : Record} (h : r.opc = 7) : decodeRecord r = withBoth r (.jeq · · r.imm) := by
  simp [decodeRecord, h]

/-- OPC 8 is JMPI, which uses DST alone (R52, R55). -/
theorem decodeRecord_of_opc_jmpi {r : Record} (h : r.opc = 8) :
    decodeRecord r = withDestination r fun dst => .ok (.jmpi dst) := by
  simp [decodeRecord, h]

/-- Settles O37: the word decodes to JGT, which completes or faults by its target, unless SRC or DST is reserved. -/
theorem jgtWordRule : Obligations.JgtWordRule := by
  intro s w hw hopc
  have hdecode : decode w = withBoth (unpack w) (.jgt · · (unpack w).imm) := decodeRecord_of_opc_jgt hopc
  refine ⟨fun src dst hsrc hdst => ?_, hw.faults_withBoth hdecode⟩
  rw [hw.step_withBoth hdecode hsrc hdst]
  obtain ⟨hr, _⟩ := hw
  split
  · next hvalid =>
    obtain ⟨hlo, hhi⟩ := hvalid
    exact jgtJumpsOnSignedGreater s src dst _ hr hlo hhi
  · next hbad =>
    obtain ⟨hfaults, _⟩ := jumpsFaultOnInvalidTargets s src dst (unpack w).imm
    exact (hfaults (by omega)).left

/-- Settles O38: the word decodes to JEQ, which completes or faults by its target, unless SRC or DST is reserved. -/
theorem jeqWordRule : Obligations.JeqWordRule := by
  intro s w hw hopc
  have hdecode : decode w = withBoth (unpack w) (.jeq · · (unpack w).imm) := decodeRecord_of_opc_jeq hopc
  refine ⟨fun src dst hsrc hdst => ?_, hw.faults_withBoth hdecode⟩
  rw [hw.step_withBoth hdecode hsrc hdst]
  obtain ⟨hr, _⟩ := hw
  split
  · next hvalid =>
    obtain ⟨hlo, hhi⟩ := hvalid
    exact jeqJumpsOnEqualWords s src dst _ hr hlo hhi
  · next hbad =>
    obtain ⟨hfaults, _⟩ := jumpsFaultOnInvalidTargets s src dst (unpack w).imm
    exact (hfaults (by omega)).right

/-- Settles O39: the word decodes to JMPI, which completes or faults by the register's value, unless DST is reserved. -/
theorem jmpiWordRule : Obligations.JmpiWordRule := by
  intro s w hw hopc
  have hdecode : decode w = withDestination (unpack w) fun dst => .ok (.jmpi dst) := decodeRecord_of_opc_jmpi hopc
  refine ⟨fun dst hdst => ?_, hw.faults_withDestination hdecode⟩
  rw [hw.step_withDestination hdecode hdst]
  obtain ⟨hr, _⟩ := hw
  split
  · next hvalid =>
    obtain ⟨hlo, hhi⟩ := hvalid
    exact jmpiJumpsToTheRegister s dst hr hlo hhi
  · next hbad =>
    obtain ⟨_, hfaults⟩ := jumpsFaultOnInvalidTargets s dst dst (readReg s dst)
    exact hfaults (by omega)

/-! ### The order of execution -/

/-- The PC after the instruction `i`, where it does not fault: the target of a taken jump, and otherwise one more than the
PC, or than what `i` itself wrote there (R76 to R78). -/
def nextPc (s : State) (i : Instr) : Word := (takenTarget s i).getD ((dataWriteToPc s i).getD s.pc + 1)

/-- The increment, judged, leaves the PC one more than it was (R76). -/
theorem pc_boundary_advance (s : State) : (boundary (advance s)).pc = s.pc + 1 := by
  rw [boundary_pc, advance_pc, increment_eq]

/-- The sequencer adds 1 to what a register write has left in the PC (R76); `v'` is the value written where the register
is the PC. -/
theorem pc_boundary_advance_writeReg {d : Reg} {v v' : Word} {s : State} (hv : d = .pc → v = v') :
    (boundary (advance (writeReg d v s))).pc = (if d = .pc then some v' else none).getD s.pc + 1 := by
  rw [pc_boundary_advance, writeReg_pc]
  split
  · next hd => rw [hv hd, Option.getD_some]
  · rfl

/-- The PC after a jump that did not fault, taken or not (R77, R78). -/
theorem pc_of_conditionalJump {s t : State} {target : Word} {c : Prop} [Decidable c]
    (h : (if validTarget s target then .next (boundary (if c then writeReg .pc target s else advance s))
      else .next (raiseFault .jumpOutOfRange s) : Host.Outcome State Fault Refusal) = .next t)
    (ht : t.rs ≠ .faulted) : t.pc = (if c then some target else none).getD (s.pc + 1) := by
  split at h <;> cases h
  · split
    · exact boundary_pc _
    · exact pc_boundary_advance s
  · exact absurd rfl ht

/-- An instruction that does not fault leaves the PC at `nextPc`. -/
theorem exec_pc {s t : State} {i : Instr} (h : exec i s = .next t) (ht : t.rs ≠ .faulted) : t.pc = nextPc s i := by
  cases i with
  | nop => cases h; exact pc_boundary_advance s
  | set imm dst => cases h; exact pc_boundary_advance_writeReg fun _ => rfl
  | add src dst =>
    cases (exec_add src dst s).symm.trans h
    exact pc_boundary_advance_writeReg fun hd => by rw [hd, readReg_pc]
  | sub src dst =>
    cases (exec_sub src dst s).symm.trans h
    exact pc_boundary_advance_writeReg fun hd => by rw [hd, readReg_pc]
  | load off dst =>
    rw [exec_load] at h
    split at h <;> cases h
    · exact pc_boundary_advance_writeReg fun _ => rfl
    · exact absurd rfl ht
  | store src off =>
    rw [exec_store] at h
    split at h <;> cases h
    · exact pc_boundary_advance (memWrite off (readReg s src) s)
    · exact absurd rfl ht
  | jgt src dst target => exact pc_of_conditionalJump ((exec_jgt src dst target s).symm.trans h) ht
  | jeq src dst target => exact pc_of_conditionalJump ((exec_jeq src dst target s).symm.trans h) ht
  | jmpi dst =>
    rw [exec_jmpi] at h
    split at h <;> cases h
    · exact boundary_pc _
    · exact absurd rfl ht
  | print src => cases h; exact pc_boundary_advance (output (readReg s src) s)

/-- A data write to the PC is no jump. -/
theorem takenTarget_of_dataWriteToPc {s : State} {i : Instr} {v : Word} (h : dataWriteToPc s i = some v) :
    takenTarget s i = none := by
  cases i with
  | jgt _ _ _ | jeq _ _ _ | jmpi _ => cases h
  | _ => rfl

/-- Settles O17: the three clauses are the three cases of `nextPc`. -/
theorem onlyJumpsAndPcWritesLeaveSequentialOrder : Obligations.OnlyJumpsAndPcWritesLeaveSequentialOrder := by
  intro s t i _ hi hst ht
  have hpc : t.pc = nextPc s i := exec_pc ((step_of_currentInstr hi).symm.trans hst) ht
  rw [hpc, nextPc]
  refine ⟨fun tgt htaken => ?jump, fun v hwrite => ?pcWrite, fun hstay hunwritten => ?sequential⟩
  case jump => rw [htaken]; rfl
  case pcWrite => rw [takenTarget_of_dataWriteToPc hwrite, hwrite]; rfl
  case sequential => rw [hstay, hunwritten]; rfl

/-! ### The endless loop -/

/-- Writing back what the PC holds changes nothing. -/
theorem writeReg_pc_self (s : State) : writeReg .pc s.pc s = s := rfl

/-- The boundary evaluation changes nothing while the PC is an index of the program (R72). -/
theorem boundary_of_fetchInRange {s : State} (h : fetchInRange s = true) : boundary s = s := by
  have ⟨hlo, hhi⟩ := (validTarget_iff s s.pc).1 h
  rcases boundary_spec s with ⟨hend, _⟩ | ⟨hout, _⟩ | ⟨_, _, e⟩
  · omega
  · omega
  · exact e

/-- A JMPI through the PC jumps to itself (R14, R116). -/
theorem step_jmpi_pc {s : State} (h : currentInstr s = some (.jmpi .pc)) : step s = .next s := by
  have ⟨_, hf, _⟩ := currentInstr_eq_some.1 h
  have hvalid : validTarget s (readReg s .pc) = true := hf
  rw [step_of_currentInstr h, exec_jmpi, if_pos hvalid, readReg_pc, writeReg_pc_self, boundary_of_fetchInRange hf]

/-- Settles O53, by induction on the number of steps: each begins in the state the loop began in. -/
theorem jmpiThroughThePcNeverEnds : Obligations.JmpiThroughThePcNeverEnds := by
  intro s n _ hi
  induction n with
  | zero => exact run_zero s
  | succ n ih => rw [run_succ (step_jmpi_pc hi), ih]

end Sys2Proof.Machine
end

section
/-! PROOF. The four faults: exactly when a step raises each, and what it has then written (spec/60_exceptions.md rules
R131 to R134, R136, R137). -/

namespace Sys2Proof

/-- A record is illegal where one of the three checks fails (R59). -/
theorem Record.legal_eq_false (r : Record) :
    r.legal = false ↔ r.opcodeDefined = false ∨ r.srcNamed = false ∨ r.dstNamed = false := by
  rw [← Bool.not_eq_true, Record.legal_iff, not_and_or, not_and_or]
  simp only [Bool.not_eq_true]

/-- The words the decoder refuses, field by field (R56, R57). -/
theorem exists_decode_eq_error_iff (w : InstrWord) :
    (∃ e, decode w = .error e) ↔
      10 ≤ (unpack w).opc.toNat ∨
      ((unpack w).opc.toNat ∈ [2, 3, 5, 6, 7, 9] ∧ 7 ≤ (unpack w).src.toNat) ∨
      ((unpack w).opc.toNat ∈ [1, 2, 3, 4, 6, 7, 8] ∧ 7 ≤ (unpack w).dst.toNat) := by
  refine exists_decodeRecord_eq_error_iff.trans ?_
  rw [Record.legal_eq_false, Record.opcodeDefined_eq_false, Record.srcNamed_eq_false, Record.dstNamed_eq_false]
  exact Iff.rfl

end Sys2Proof

namespace Sys2Proof.Machine

/-! ### How an instruction ends -/

/-- `Raises s i c`: executed in `s`, the instruction `i` fails the check that raises `c`; `exec_of_raises` and
`raises_of_exec` tie it to `exec`. -/
inductive Raises (s : State) (i : Instr) : FaultCause → Prop where
  /-- The bounds check of LOAD and STORE (R131). -/
  | offset (off : Word) (hoff : usedOffset i = some off) (hbad : ¬ inRange s off = true) : Raises s i .memOutOfRange
  /-- The target check of the three jumps, taken or not (R117, R132). -/
  | target (tgt : Word) (htgt : checkedTarget s i = some tgt) (hbad : ¬ validTarget s tgt = true) :
    Raises s i .jumpOutOfRange

/-- `Ending s i t`: `t` is what the instruction `i`, executed in `s`, can end in, told apart by where the PC stands when
the boundary evaluation judges it. -/
inductive Ending (s : State) (i : Instr) : State → Prop where
  /-- A fault of the execute phase, raised before anything was written (R79, R80). -/
  | raised (c : FaultCause) (hc : Raises s i c) : Ending s i (raiseFault c s)
  /-- A data write to the PC, then incremented (R76). -/
  | pcWritten (v : Word) (hv : dataWriteToPc s i = some v) : Ending s i (boundary (advance (writeReg .pc v s)))
  /-- The PC has moved on by one, or to a target that passed its check (R76 to R78). -/
  | inOrder (u : State) (hu : Effect s u) (hpc : u.pc = s.pc + 1 ∨ validTarget s u.pc = true) :
    Ending s i (boundary u)

namespace Ending

variable {s t : State} {i : Instr}

/-- An effect that leaves the PC to the increment. -/
theorem advanced {u : State} (hu : Effect s (advance u)) (hpc : u.pc = s.pc) : Ending s i (boundary (advance u)) :=
  .inOrder _ hu (.inl (by rw [advance_pc, increment_eq, hpc]))

/-- A data write to any register; `v'` is the value written where that register is the PC. -/
theorem registerWritten {d : Reg} {v v' : Word} (hv : d = .pc → v = v')
    (hw : dataWriteToPc s i = if d = .pc then some v' else none) :
    Ending s i (boundary (advance (writeReg d v s))) := by
  by_cases hd : d = .pc
  · rw [if_pos hd, ← hv hd] at hw
    subst hd
    exact .pcWritten v hw
  · exact advanced (.register d v) (by rw [writeReg_pc, if_neg hd])

/-- A jump: the target check, then the branch (R77, R78, R117). -/
theorem of_jumpTo {taken : Bool} {tgt : Word} (htgt : checkedTarget s i = some tgt)
    (h : retire s (jumpTo taken tgt s) = .next t) : Ending s i t := by
  rw [retire_jumpTo] at h
  split at h <;> cases h
  · next hvalid =>
    split
    · exact .inOrder _ (.jump tgt hvalid) (.inr hvalid)
    · exact advanced .plain rfl
  · next hbad => exact .raised _ (.target tgt htgt hbad)

end Ending

/-- Every instruction ends in one of the three ways. -/
theorem exec_ending {s t : State} {i : Instr} (h : exec i s = .next t) : Ending s i t := by
  cases i with
  | nop => cases h; exact .advanced .plain rfl
  | set imm dst => cases h; exact .registerWritten (fun _ => rfl) rfl
  | add src dst =>
    cases (exec_add src dst s).symm.trans h
    exact .registerWritten (fun hd => by rw [hd, readReg_pc]) rfl
  | sub src dst =>
    cases (exec_sub src dst s).symm.trans h
    exact .registerWritten (fun hd => by rw [hd, readReg_pc]) rfl
  | load off dst =>
    rw [exec_load] at h
    split at h <;> cases h
    · exact .registerWritten (fun _ => rfl) rfl
    · next hbad => exact .raised _ (.offset off rfl hbad)
  | store src off =>
    rw [exec_store] at h
    split at h <;> cases h
    · next hoff => exact .advanced (.memory off _ hoff) rfl
    · next hbad => exact .raised _ (.offset off rfl hbad)
  | jgt _ _ _ | jeq _ _ _ | jmpi _ => exact .of_jumpTo rfl h
  | print src => cases h; exact .advanced (.printed _) rfl

/-! ### The faults of decode and execute -/

/-- An instruction that fails its check raises that fault (R131, R132). -/
theorem exec_of_raises {s : State} {i : Instr} {c : FaultCause} (h : Raises s i c) :
    exec i s = .next (raiseFault c s) := by
  cases h with
  | offset off hoff hbad =>
    cases i with
    | load _ dst => cases hoff; rw [exec_load, if_neg hbad]
    | store src _ => cases hoff; rw [exec_store, if_neg hbad]
    | _ => cases hoff
  | target tgt htgt hbad =>
    cases i with
    | jgt src dst _ => cases htgt; rw [exec_jgt, if_neg hbad]
    | jeq src dst _ => cases htgt; rw [exec_jeq, if_neg hbad]
    | jmpi dst => cases htgt; rw [exec_jmpi, if_neg hbad]
    | _ => cases htgt

/-- A fault an instruction ends in is that of a check it failed, or the boundary's. -/
theorem raises_of_exec {s t : State} {i : Instr} {c : FaultCause} (hs : s.cause = none) (h : exec i s = .next t)
    (ht : t.cause = some c) (hc : c ≠ .fetchOutOfRange) : Raises s i c := by
  cases exec_ending h with
  | raised c' hraises =>
    obtain rfl : c' = c := by simpa using ht
    exact hraises
  | pcWritten v _ =>
    exact absurd (eq_fetchOutOfRange_of_boundary_cause (u := advance (writeReg .pc v s)) hs ht) hc
  | inOrder u hu _ => exact absurd (eq_fetchOutOfRange_of_boundary_cause (hu.cause_eq.trans hs) ht) hc

/-- A fault a step ends in, other than the boundary's, is the decoder's or that of a check its instruction failed
(R136). -/
theorem raised_of_step {s t : State} {c : FaultCause} (hr : s.rs = .running) (hs : s.cause = none)
    (h : step s = .next t) (ht : t.cause = some c) (hc : c ≠ .fetchOutOfRange) :
    (c = .invalidOpcode ∧ ∃ e, decode (fetch s) = .error e) ∨ ∃ i, currentInstr s = some i ∧ Raises s i c := by
  rcases step_spec h with ⟨hhalted, _⟩ | ⟨_, _, rfl⟩ | ⟨_, _, he, rfl⟩ | ⟨_, hf, i, hd, hexec⟩
  · exact absurd hr hhalted
  · exact absurd (eq_fetchOutOfRange_of_boundary_cause hs ht) hc
  · exact .inl ⟨by simpa using ht.symm, he⟩
  · exact .inr ⟨i, currentInstr_eq_some.2 ⟨hr, hf, hd⟩, raises_of_exec hs hexec ht hc⟩

/-- A step whose instruction fails its check raises that fault. -/
theorem step_cause_of_raises {s t : State} {i : Instr} {c : FaultCause} (hi : currentInstr s = some i)
    (hc : Raises s i c) (h : step s = .next t) : t.cause = some c := by
  rw [step_of_currentInstr hi, exec_of_raises hc] at h
  cases h
  exact raiseFault_cause c s

/-- The offsets that fail the bounds check (R40). -/
theorem not_inRange_iff (s : State) (a : Word) : ¬ inRange s a = true ↔ s.memSize ≤ a.toNat := by
  rw [inRange_iff, not_lt]

/-- Settles O11: no check of the execute phase raises InvalidOpcode, so the decoder refused the word. -/
theorem invalidOpcodeExactlyForIllegalWords : Obligations.InvalidOpcodeExactlyForIllegalWords := by
  intro s t w hw hs h
  have ⟨hr, _, _, hfetch⟩ := hw
  rw [← exists_decode_eq_error_iff]
  refine ⟨⟨fun ht => ?refused, fun ⟨e, he⟩ => ?raised⟩,
    fun ht => (faultingStepWritesOnlyTheStatus s t _ hr hs h ht (by decide)).left⟩
  case refused =>
    rcases raised_of_step hr hs h ht (by decide) with ⟨_, he⟩ | ⟨i, _, hraises⟩
    · rwa [hfetch] at he
    · cases hraises
  case raised =>
    obtain ⟨t', ht', rfl⟩ := hw.faults_of_decode_error he
    cases ht'.symm.trans h
    rfl

/-- Settles O12: the bounds check alone raises MemOutOfRange. -/
theorem memOutOfRangeExactlyForBadOffsets : Obligations.MemOutOfRangeExactlyForBadOffsets := by
  intro s t hr hs h
  simp only [← not_inRange_iff]
  refine ⟨⟨fun ht => ?_, fun ⟨_, off, hi, hoff, hbad⟩ =>
    step_cause_of_raises hi (.offset off hoff hbad) h⟩,
    fun ht => (faultingStepWritesOnlyTheStatus s t _ hr hs h ht (by decide)).left⟩
  rcases raised_of_step hr hs h ht (by decide) with ⟨hc, _⟩ | ⟨i, hi, hraises⟩
  · cases hc
  · obtain ⟨off, hoff, hbad⟩ := hraises
    exact ⟨i, off, hi, hoff, hbad⟩

/-- Settles O13: the target check alone raises JumpOutOfRange. -/
theorem jumpOutOfRangeExactlyForBadTargets : Obligations.JumpOutOfRangeExactlyForBadTargets := by
  intro s t hr hs h
  simp only [← not_validTarget_iff]
  refine ⟨⟨fun ht => ?_, fun ⟨_, tgt, hi, htgt, hbad⟩ =>
    step_cause_of_raises hi (.target tgt htgt hbad) h⟩,
    fun ht => (faultingStepWritesOnlyTheStatus s t _ hr hs h ht (by decide)).left⟩
  rcases raised_of_step hr hs h ht (by decide) with ⟨hc, _⟩ | ⟨i, hi, hraises⟩
  · cases hc
  · obtain _ | ⟨tgt, htgt, hbad⟩ := hraises
    exact ⟨i, tgt, hi, htgt, hbad⟩

/-! ### The fault of the boundary evaluation -/

/-- The boundary evaluation raises its fault exactly for a PC outside 0 to PROGSIZE (R72, R134). -/
theorem boundary_cause_eq_fetchOutOfRange_iff {u : State} (hu : u.cause = none) :
    (boundary u).cause = some .fetchOutOfRange ↔ u.pc.toInt < 0 ∨ (u.progSize : Int) < u.pc.toInt := by
  rcases boundary_spec u with ⟨hpc, e⟩ | ⟨hpc, e⟩ | ⟨hlo, hhi, e⟩ <;> rw [e]
  · simp [hu, hpc]
  · simp [hpc]
  · simp [hu, hlo, hhi.le]

/-- Outside 0 to PROGSIZE the boundary evaluation takes its fault (R72). -/
theorem boundary_of_outOfRange {u : State} (h : u.pc.toInt < 0 ∨ (u.progSize : Int) < u.pc.toInt) :
    boundary u = raiseFault .fetchOutOfRange u := by
  rcases boundary_spec u with ⟨_, _⟩ | ⟨_, e⟩ | ⟨_, _, _⟩
  · omega
  · exact e
  · omega

/-- Nothing overflows at the increment of a PC below PROGSIZE, which is at most 2^31 - 1 (R5, R16). -/
theorem toInt_pc_add_one {s : State} (hf : fetchInRange s = true) : (s.pc + 1).toInt = s.pc.toInt + 1 := by
  have ⟨hlo, hhi⟩ := (validTarget_iff s s.pc).1 hf
  have hsize : s.progSize < 2 ^ 31 := s.params.progSize.isLt
  rw [BitVec.toInt_add, show (1 : Word).toInt = 1 from rfl, Int.bmod_eq_of_le] <;> omega

/-- In order, the PC is left at an index of the program or at its end (R17). -/
theorem toInt_bounds_of_inOrder {s : State} {pc : Word} (hf : fetchInRange s = true)
    (hpc : pc = s.pc + 1 ∨ validTarget s pc = true) : 0 ≤ pc.toInt ∧ pc.toInt ≤ (s.progSize : Int) := by
  have ⟨hlo, hhi⟩ := (validTarget_iff s s.pc).1 hf
  rcases hpc with rfl | hvalid
  · rw [toInt_pc_add_one hf]
    omega
  · have ⟨hlo', hhi'⟩ := (validTarget_iff s pc).1 hvalid
    omega

/-- An instruction that leaves the boundary evaluation to fault has written the PC as data, and nothing else (R134). -/
theorem exec_fetchOutOfRange {s t : State} {i : Instr} (hf : fetchInRange s = true) (hs : s.cause = none)
    (h : exec i s = .next t) (ht : t.cause = some .fetchOutOfRange) :
    ∃ v, dataWriteToPc s i = some v ∧
      t = { s with x := { s.x with pc := v + 1 }, rs := .faulted, cause := some .fetchOutOfRange } := by
  cases exec_ending h with
  | raised c hraises =>
    obtain rfl : c = .fetchOutOfRange := by simpa using ht
    cases hraises
  | pcWritten v hv =>
    have hout := (boundary_cause_eq_fetchOutOfRange_iff (u := advance (writeReg .pc v s)) hs).1 ht
    refine ⟨v, hv, ?_⟩
    rw [boundary_of_outOfRange hout, ← increment_eq]
    rfl
  | inOrder u hu hpc =>
    have hout := (boundary_cause_eq_fetchOutOfRange_iff (hu.cause_eq.trans hs)).1 ht
    have ⟨hlo, hhi⟩ := toInt_bounds_of_inOrder hf hpc
    rw [State.progSize, hu.params_eq, ← State.progSize] at hout
    omega

/-- Settles O14: a fault of decode or execute leaves the PC in the program, and any other step is judged there; a PC
that moved in order is never left out of range. -/
theorem fetchOutOfRangeOnlyAfterAWriteOfThePc : Obligations.FetchOutOfRangeOnlyAfterAWriteOfThePc := by
  intro s t hinv hr h
  have hs := hinv.cause_eq_none hr
  have hf := hinv.fetchInRange hr
  refine ⟨?judged, fun ht => ?written⟩
  case judged =>
    rcases step_ends hr h with ⟨c, hc, rfl⟩ | ⟨u, _, hu, hparams, rfl⟩
    · have ⟨hlo, hhi⟩ := (validTarget_iff s s.pc).1 hf
      simp [hc, hlo, hhi.le]
    · rw [boundary_cause_eq_fetchOutOfRange_iff (hu.trans hs), boundary_pc, State.progSize, hparams,
        ← State.progSize]
  case written =>
    rcases step_spec h with ⟨hhalted, _⟩ | ⟨_, hout, _⟩ | ⟨_, _, _, rfl⟩ | ⟨_, _, i, hd, hexec⟩
    · exact absurd hr hhalted
    · simp [hf] at hout
    · cases ht
    · obtain ⟨v, hv, e⟩ := exec_fetchOutOfRange hf hs hexec ht
      exact ⟨i, v, currentInstr_eq_some.2 ⟨hr, hf, hd⟩, hv, e⟩

end Sys2Proof.Machine
end

section
/-! PROOF. Reset, and what no step touches: the reset sequence leaves the state of R27 wherever it is applied, and the
parameters it binds stay until the next one (rules R161, R162). -/

namespace Sys2Proof.Machine

/-! ### The reset sequence -/

/-- The state of R161 just before its boundary evaluation: that of R27, but RUNNING whatever PROGSIZE is. -/
theorem applyReset_eq_boundary (p : Params) (s : State) :
    applyReset p s = boundary { State.create p with rs := .running } := rfl

/-- Settles O52, by the three verdicts of the boundary evaluation at PC 0: DONE for a PROGSIZE of 0, no fault for any
PROGSIZE, and RUNNING kept for a PROGSIZE above 0. -/
theorem resetSequenceFromAnyState : Obligations.ResetSequenceFromAnyState := by
  intro p s
  rw [applyReset_eq_boundary]
  have hpc : ({ State.create p with rs := .running } : State).pc.toInt = 0 := rfl
  have hsize : ({ State.create p with rs := .running } : State).progSize = p.progSize.val := rfl
  rcases boundary_spec { State.create p with rs := .running } with ⟨hend, e⟩ | ⟨hout, _⟩ | ⟨_, hin, e⟩
  · have hzero : p.progSize.val = 0 := by omega
    rw [e]
    simp only [State.create, if_pos hzero]
  · omega
  · have hpos : p.progSize.val ≠ 0 := by omega
    rw [e]
    simp only [State.create, if_neg hpos]

/-! ### Between one reset and the next -/

/-- Settles O47, by the invariant of the run: no step writes the parameters. -/
theorem parametersNeverChange : Obligations.ParametersNeverChange :=
  fun _ _ _ h => run_params h

end Sys2Proof.Machine
end

section
/-! PROOF. The words the spec writes out (spec/95_test_vectors.md section 2.7): each row is an encoding example read left
to right, and a decoding example read right to left. -/

namespace Sys2Proof

/-- A row of section 2.7 that holds left to right holds right to left (O2). -/
theorem decode_of_encode_eq {i : Instr} {w : InstrWord} (h : encode i = w) : decode w = .ok i :=
  h ▸ decodeOfEncodeIsIdentity i

/-- Settles O7: each word is the one its instruction encodes to. -/
theorem specWordsDecode : Obligations.SpecWordsDecode := by
  have hset : encode (.set 37337 .r0) = 0x010000000000000091D9#80 := by decide
  have hsub : encode (.sub .r1 .r2) = 0x03120000000000000000#80 := by decide
  have hload : encode (.load 3 .r2) = 0x04020000000300000000#80 := by decide
  have hjeq : encode (.jeq .r5 .r0 11) = 0x0750000000000000000B#80 := by decide
  have hprint : encode (.print .pc) = 0x09600000000000000000#80 := by decide
  exact ⟨decode_of_encode_eq hset, decode_of_encode_eq hsub, decode_of_encode_eq hload, decode_of_encode_eq hjeq,
    decode_of_encode_eq hprint⟩

end Sys2Proof
end
